-- ==== Sys2Proof/Word.lean ====
section
/-! DEFINITION. The bit-vector types of the core and its three named values (R12, R18, R37). -/

namespace Sys2Proof

/-- One byte of text (R16, R17). -/
abbrev Byte := BitVec 8

/-- One 32-bit unsigned unit of a value; also the type of the scalar operand S and of RSP_W (R19, R37). -/
abbrev Word := BitVec 32

/-- A value: 256 bits, bit 0 the least significant; every pattern is a valid value (R12, R20).
`v.toNat` is the spec's `val(v)`, and `BitVec.ofNat 256 n` its `U256(n)` (R13). -/
abbrev U256 := BitVec 256

/-- The OP field, `cmd_op[3:0]` (R52). -/
abbrev Opcode := BitVec 4

/-- The contents of RSP_ERR (R112). -/
abbrev ErrCode := BitVec 2

/-- ZERO: every word 0 (R18). -/
def U256.zero : U256 := 0#256

/-- ONE = from_u32(1) (R18). -/
def U256.one : U256 := 1#256

/-- MAX: every word 0xFFFFFFFF, the number 2^256 - 1 (R18). -/
def U256.max : U256 := BitVec.allOnes 256

end Sys2Proof
end

