-- ==== Sys2Proof/Config.lean ====
section
/-! DEFINITION. The parameters the spec leaves open (R11): HEX_IN_MAX, TLENBITS, LAT and LAT_MAX.
Each is built from an opaque constant, so that it takes every value the spec's constraint allows and no
proof can see which. The fixed parameters of R9 and R10 are in the types of Word.lean and Machine/State.lean. -/

namespace Sys2Proof.Config

/-- How far the text port is longer than the 72 bytes the spec demands: free (R11, I8; log entry 1). -/
opaque hexInExtra : Nat

/-- HEX_IN_MAX, the capacity in bytes of the text input port: any number from 72 up (R11). -/
def hexInMax : Nat := hexInExtra + 72

/-- How many bits the length port has beyond the fewest that can hold HEX_IN_MAX: free (R11, I9; log entry 1). -/
opaque tlenExtra : Nat

/-- TLENBITS, the width of the length port: any width with `2^TLENBITS > HEX_IN_MAX` (R11). -/
def tlenBits : Nat := Nat.log2 hexInMax + 1 + tlenExtra

/-- LAT_MAX - 1: free (R11, I7; log entry 2). -/
opaque latMaxExtra : Nat

/-- LAT_MAX, the bound on every latency (R11, R134). -/
def latMax : Nat := latMaxExtra + 1

/-- What an operation's latency exceeds 1 by, before the bound LAT_MAX is applied: free (R11, I6; log entry 2). -/
opaque latExtraOfOp : Opcode → Nat

/-- The same for from_hex, whose latency may also depend on TLEN (R134; log entry 2). -/
opaque latExtraOfTextLength : Nat → Nat

/-- LAT(op) in clock edges, `1 <= LAT(op) <= LAT_MAX`. It depends on the OP and, for from_hex (OP 0x2)
alone, on TLEN; on no other operand value (R11, R134). -/
def lat (op : Opcode) (tlen : Nat) : Nat :=
  min (if op = 2#4 then latExtraOfTextLength tlen else latExtraOfOp op) latMaxExtra + 1

end Sys2Proof.Config
end

