-- ==== Sys2Proof/Syntax.lean ====
section
/-! DEFINITION. A command as it stands on the ports (R23, R51), the operand forms (R54), and `Instr`,
one constructor for each row of spec/opcode_table.json, which holds exactly the operands the row's form reads. -/

namespace Sys2Proof

/-- The command ports, sampled together at the accepting edge (R23, R25, R51). -/
structure Command where
  /-- `cmd_op`, the operation select OP. -/
  op : Opcode
  /-- `opa`, operand A. -/
  opa : U256
  /-- `opb`, operand B. -/
  opb : U256
  /-- `ops`, the scalar operand S. -/
  ops : Word
  /-- `txt_len`, the text length TLEN. -/
  txtLen : BitVec Config.tlenBits
  /-- `txt_in`, the text operand T: byte p is bits [8p+7:8p]. -/
  txtIn : BitVec (8 * Config.hexInMax)
deriving DecidableEq, Repr

/-- The input pins at one rising edge of `clk` (R23). -/
structure Pins where
  /-- `rst`, synchronous reset, active high. -/
  rst : Bool
  /-- `cmd_valid`: the host presents a command. -/
  cmdValid : Bool
  /-- The operand ports and `cmd_op`. -/
  cmd : Command
deriving DecidableEq, Repr

/-- The operand forms of R54; `reserved` is the table's "none", of OP 0xA to 0xF. -/
inductive Form
  | fmtS | fmtA | fmtT | fmtATxt | fmtASW | fmtAB | fmtAS | reserved
deriving DecidableEq, Repr

/-- The sixteen commands (R53, R59). An operand a command's form does not name is no argument of its
constructor, so it can change neither the result nor the error (R54, I14). -/
inductive Instr
  /-- OP 0x0, S (R65). -/
  | fromU32 (v : Word)
  /-- OP 0x1, A (R66). -/
  | fromWords (a : U256)
  /-- OP 0x2, TLEN and T[0..TLEN-1] (R75); `t` is empty where TLEN is the reserved length of R58 (log entry 10). -/
  | fromHex (tlen : Nat) (t : List Byte)
  /-- OP 0x3, A (R84). -/
  | toHex (a : U256)
  /-- OP 0x4, A and the index S (R87). -/
  | getWord (a : U256) (index : Word)
  /-- OP 0x5, A and B (R91). -/
  | add (a b : U256)
  /-- OP 0x6, A (R94). -/
  | negate (a : U256)
  /-- OP 0x7, the minuend A and the subtrahend B (R98). -/
  | sub (a b : U256)
  /-- OP 0x8, A and the amount S (R104). -/
  | rotateLeft (a : U256) (n : Word)
  /-- OP 0x9, A and the amount S (R107). -/
  | rotateRight (a : U256) (n : Word)
  /-- OP 0xA, reserved (R59). -/
  | reservedA
  /-- OP 0xB, reserved (R59). -/
  | reservedB
  /-- OP 0xC, reserved (R59). -/
  | reservedC
  /-- OP 0xD, reserved (R59). -/
  | reservedD
  /-- OP 0xE, reserved (R59). -/
  | reservedE
  /-- OP 0xF, reserved (R59). -/
  | reservedF
deriving DecidableEq, Repr

/-- The operand form of each command (R54). -/
def Instr.form : Instr → Form
  | .fromU32 _ => .fmtS
  | .fromWords _ => .fmtA
  | .fromHex _ _ => .fmtT
  | .toHex _ => .fmtATxt
  | .getWord _ _ => .fmtASW
  | .add _ _ => .fmtAB
  | .negate _ => .fmtA
  | .sub _ _ => .fmtAB
  | .rotateLeft _ _ => .fmtAS
  | .rotateRight _ _ => .fmtAS
  | .reservedA => .reserved
  | .reservedB => .reserved
  | .reservedC => .reserved
  | .reservedD => .reserved
  | .reservedE => .reserved
  | .reservedF => .reserved

/-- Does the form read operand A? (R54) -/
def Form.readsA : Form → Bool
  | .fmtA | .fmtATxt | .fmtASW | .fmtAB | .fmtAS => true
  | .fmtS | .fmtT | .reserved => false

/-- Does the form read operand B? (R54) -/
def Form.readsB : Form → Bool
  | .fmtAB => true
  | .fmtS | .fmtA | .fmtT | .fmtATxt | .fmtASW | .fmtAS | .reserved => false

/-- Does the form read the scalar operand S? (R54) -/
def Form.readsS : Form → Bool
  | .fmtS | .fmtASW | .fmtAS => true
  | .fmtA | .fmtT | .fmtATxt | .fmtAB | .reserved => false

/-- Does the form read TLEN and T? (R54) -/
def Form.readsT : Form → Bool
  | .fmtT => true
  | .fmtS | .fmtA | .fmtATxt | .fmtASW | .fmtAB | .fmtAS | .reserved => false

end Sys2Proof
end

