-- ==== Sys2Proof/WellFormed.lean ====
section
/-! DEFINITION. Which instruction terms the ports can carry. Only from_hex can be ill-formed: every value of the
other operands' types can be presented (R60). -/

namespace Sys2Proof

/-- TLEN fits the length port: a longer text cannot be presented at all (R37, R123 outcome 3). -/
def tlenFits (tlen : Nat) : Bool := decide (tlen < 2 ^ Config.tlenBits)

/-- T has exactly TLEN bytes; with a reserved length (TLEN > HEX_IN_MAX) no byte of the port is part of T (R25, R58). -/
def textMatches (tlen : Nat) (t : List Byte) : Bool :=
  t.length == if tlen ≤ Config.hexInMax then tlen else 0

/-- The check that an instruction term stands for a command the ports can carry (R37, R58). -/
def Instr.wf : Instr → Bool
  | .fromHex tlen t => tlenFits tlen && textMatches tlen t
  | .fromU32 _ | .fromWords _ | .toHex _ | .getWord _ _ | .add _ _ | .negate _ | .sub _ _
  | .rotateLeft _ _ | .rotateRight _ _ | .reservedA | .reservedB | .reservedC | .reservedD
  | .reservedE | .reservedF => true

/-- The from_hex command for a text: its bytes and their number, or the bare length where it is a reserved one (R58, R62). -/
def Instr.ofText (t : List Byte) : Instr :=
  .fromHex t.length (if t.length ≤ Config.hexInMax then t else [])

end Sys2Proof
end

