-- ==== Sys2Proof/Decode.lean ====
section
/-! DEFINITION. Decoding a command from its ports, and after it the encoder. The decoder is total (R60): each of
the 16 OP values gives one instruction, the reserved ones their own, so nothing is refused here. -/

namespace Sys2Proof

/-- Byte p of a byte-packed port or register: bits [8p+7:8p] (R23, R24). -/
def byteAt {n : Nat} (v : BitVec n) (p : Nat) : Byte := v.extractLsb' (8 * p) 8

/-- The number whose byte p is the p-th byte of the list. -/
def bytesVal : List Byte → Nat
  | [] => 0
  | b :: bs => b.toNat + 256 * bytesVal bs

/-- The port or register of n bits whose byte p is the p-th byte of the list, 0x00 beyond it (R23, R27). -/
def packBytes (n : Nat) (bs : List Byte) : BitVec n := BitVec.ofNat n (bytesVal bs)

/-- The first `len` bytes of a byte-packed port or register, byte 0 first (R25, R27). -/
def firstBytes {n : Nat} (v : BitVec n) (len : Nat) : List Byte := (List.range len).map (byteAt v)

/-- The text operand: TLEN with T[0..TLEN-1], or with no byte at all for a reserved length (R25, R58). -/
def decodeText (c : Command) : Instr :=
  let tlen := c.txtLen.toNat
  .fromHex tlen (if tlen ≤ Config.hexInMax then firstBytes c.txtIn tlen else [])

/-- The instruction a command on the ports stands for: the whole OP field selects it (R52, R53, R59, R60). -/
def decode (c : Command) : Instr :=
  match c.op.toNat with
  | 0x0 => .fromU32 c.ops
  | 0x1 => .fromWords c.opa
  | 0x2 => decodeText c
  | 0x3 => .toHex c.opa
  | 0x4 => .getWord c.opa c.ops
  | 0x5 => .add c.opa c.opb
  | 0x6 => .negate c.opa
  | 0x7 => .sub c.opa c.opb
  | 0x8 => .rotateLeft c.opa c.ops
  | 0x9 => .rotateRight c.opa c.ops
  | 0xA => .reservedA
  | 0xB => .reservedB
  | 0xC => .reservedC
  | 0xD => .reservedD
  | 0xE => .reservedE
  | _ => .reservedF

/-- The OP value of each instruction, from the table of R53. -/
def opcode : Instr → Opcode
  | .fromU32 _ => 0x0#4
  | .fromWords _ => 0x1#4
  | .fromHex _ _ => 0x2#4
  | .toHex _ => 0x3#4
  | .getWord _ _ => 0x4#4
  | .add _ _ => 0x5#4
  | .negate _ => 0x6#4
  | .sub _ _ => 0x7#4
  | .rotateLeft _ _ => 0x8#4
  | .rotateRight _ _ => 0x9#4
  | .reservedA => 0xA#4
  | .reservedB => 0xB#4
  | .reservedC => 0xC#4
  | .reservedD => 0xD#4
  | .reservedE => 0xE#4
  | .reservedF => 0xF#4

/-- A command with OP `op` and 0 on every operand port. -/
def Command.bare (op : Opcode) : Command :=
  { op := op, opa := 0#256, opb := 0#256, ops := 0#32, txtLen := 0#_, txtIn := 0#_ }

/-- The ports that carry an instruction: its OP and its operands; ports its form does not read, don't-cares of
R63, carry 0. -/
def encode (i : Instr) : Command :=
  let c := Command.bare (opcode i)
  match i with
  | .fromU32 v => { c with ops := v }
  | .fromWords a => { c with opa := a }
  | .fromHex tlen t => { c with txtLen := BitVec.ofNat _ tlen, txtIn := packBytes _ t }
  | .toHex a => { c with opa := a }
  | .getWord a index => { c with opa := a, ops := index }
  | .add a b => { c with opa := a, opb := b }
  | .negate a => { c with opa := a }
  | .sub a b => { c with opa := a, opb := b }
  | .rotateLeft a n => { c with opa := a, ops := n }
  | .rotateRight a n => { c with opa := a, ops := n }
  | .reservedA | .reservedB | .reservedC | .reservedD | .reservedE | .reservedF => c

/-- The command whose bits, as spec/opcode_table.json numbers them, are w. The table gives a row the four bits of
`cmd_op[3:0]` alone (mask 0xF), so bits 3..0 are OP, no port carries bits above them, and every operand is 0
(log entry 3). -/
def Command.ofTableWord (w : Nat) : Command := Command.bare (BitVec.ofNat 4 w)

/-- The instruction the decoder reads from a table word; none only where fewer bits are given than the OP field has. -/
def decodeTableWord (nbits w : Nat) : Option Instr :=
  if nbits < 4 then none else some (decode (Command.ofTableWord w))

end Sys2Proof
end

