-- ==== Sys2Proof/Machine/State.lean ====
section
/-! DEFINITION. The machine's state as plain data: the record of R36 with every register it names, the two ghost
records the spec gives a model (written or unwritten, R33; what the last command wrote, R123), and the host agent's
coming actions (R22). -/

namespace Sys2Proof.Machine

/-- The five response registers (R26). -/
inductive RspReg
  | rspR | rspW | rspTxt | rspTxtLen | rspErr
deriving DecidableEq, Repr

/-- The ghost bit of each response register: has a command written it since the last reset? (R33) -/
structure Written where
  r : Bool
  w : Bool
  txt : Bool
  txtLen : Bool
  err : Bool
deriving DecidableEq, Repr

/-- No response register is written: the state after reset (R35). -/
def Written.nothing : Written := { r := false, w := false, txt := false, txtLen := false, err := false }

/-- What the last completed command left: nothing completed since reset, an error, or which result it wrote
(R32, R54); the model's ghost for the host faults of R123. -/
inductive LastCompletion
  | noneYet | errored | wroteR | wroteW | wroteTxt
deriving DecidableEq, Repr

/-- The error kinds (R111). -/
inductive ErrKind
  | invalidDigit | indexOutOfRange | illegalCommand
deriving DecidableEq, Repr

/-- The command in progress: the ports sampled at the accepting edge, and how many edges are left to its
completing edge, that one included (R29, R30, R36). -/
structure Pending where
  cmd : Command
  remaining : Nat
deriving DecidableEq, Repr

/-- What a host read delivered (R24, R28). -/
inductive HostValue
  | ofR (v : U256)
  | ofW (w : Word)
  | ofTxt (t : BitVec 512)
  | ofTxtLen (n : BitVec 7)
  | ofErr (e : ErrCode)
deriving DecidableEq, Repr

/-- One action of the host agent (R22; log entries 4, 5, 6, 11, 12 and 15). -/
inductive HostEvent
  /-- One rising edge of `clk` with these pins driven, whatever they are (R23, R29, R124). -/
  | edge (pins : Pins)
  /-- Present the instruction and hold it until an edge accepts it (R129). -/
  | issue (i : Instr)
  /-- Let the clock run, presenting nothing, until no command is in progress (R48, R130). -/
  | await
  /-- Read a register as the result, or the error code, of the last command (R130 to R132). -/
  | readResult (r : RspReg)
  /-- Read a register for what the last command that wrote it left there (R130). -/
  | readStanding (r : RspReg)
deriving DecidableEq, Repr

/-- The state of the core and of the host that drives it. -/
structure State where
  /-- BUSY, the one bit of control state (R29). -/
  busy : Bool
  /-- The command in progress (R36). -/
  pending : Option Pending
  /-- RSP_R, the value result (R26). -/
  rspR : U256
  /-- RSP_W, the word result (R26). -/
  rspW : Word
  /-- RSP_TXT, 64 bytes, byte p at bits [8p+7:8p] (R24, R27). -/
  rspTxt : BitVec 512
  /-- RSP_TXT_LEN (R26, R27). -/
  rspTxtLen : BitVec 7
  /-- RSP_ERR, the error code of the last completed command (R26, R112). -/
  rspErr : ErrCode
  /-- Did a command complete at the last edge? (R30, R36) -/
  rspValid : Bool
  /-- The written/unwritten ghost bits (R33). -/
  written : Written
  /-- Ghost: what the last completed command left (R123). -/
  last : LastCompletion
  /-- Ghost: has the host read RSP_ERR since the last completion? (R131) -/
  errChecked : Bool
  /-- Ghost: the command presented at the last edge while cmd_ready was 0, which the host must hold (R129). -/
  offered : Option Command
  /-- The host's coming actions, the next one first (R22). -/
  host : List HostEvent
  /-- What the host's last read delivered. -/
  hostValue : Option HostValue
deriving DecidableEq, Repr

/-- How the host program can go wrong (R123 outcome 2, D28). All are safe: the model stops where hardware goes on
with unspecified bits or a stale value. -/
inductive Fault
  /-- Raised by both host reads: the register is unwritten since reset, so it has no value and reading it as a result is
  a host fault by the spec's own words (R33, R123 outcome 2, D9, I3). Safe. -/
  | readUnwritten (r : RspReg)
  /-- Raised by `readResult`: the last command did not write this result register, or failed (R123, R131, R132). Safe. -/
  | readStale (r : RspReg)
  /-- Raised by `readResult`: a command is in progress, its result is not there yet (R130). Safe. -/
  | readBeforeCompletion (r : RspReg)
  /-- Raised by both host reads: RSP_ERR has not been read since the last completion (R131). Safe. -/
  | errorNotChecked (r : RspReg)
  /-- Raised at an edge where the host no longer presents, unchanged, a command it presented while cmd_ready was 0
  and that no edge has accepted (R129, D28). Safe. -/
  | commandNotHeld
deriving DecidableEq, Repr

/-- Where the model gives no meaning. -/
inductive Refusal
  /-- Raised by `exec` for an instruction that has no meaning yet. No arm raises it. Safe. -/
  | notModelled (mnemonic : String)
  /-- Raised by `HostEvent.issue` for a term the ports cannot carry: a text too long for the length port, or one
  whose bytes and length differ (R123 outcome 3). Safe. -/
  | notPresentable
deriving DecidableEq, Repr

/-- The first cycle after reset (R35): BUSY 0, nothing pending, rsp_valid 0, every response register unwritten.
The spec leaves an unwritten register's bits unspecified; they are 0 here, which is the model's choice (log entry 7). -/
def State.reset : State :=
  { busy := false, pending := none
    rspR := 0#256, rspW := 0#32, rspTxt := 0#512, rspTxtLen := 0#7, rspErr := 0#2
    rspValid := false, written := Written.nothing
    last := .noneYet, errChecked := false, offered := none, host := [], hostValue := none }

end Sys2Proof.Machine
end

