-- ==== Sys2Proof/Machine/Ops.lean ====
section
/-! DEFINITION. The operations every meaning shares: a value's words, how a command completes with a result or
an error, what the other clock edges do to the registers, the output ports and the record of R36. -/

namespace Sys2Proof.Machine

/-! ## Words of a value -/

/-- `v.w[i] = v[32i+31:32i]` (R12, R38). -/
def word (v : U256) (i : Nat) : Word := v.extractLsb' (32 * i) 32

/-- The 8 words of a value, word 0 first. -/
def words (v : U256) : List Word := (List.range 8).map (word v)

/-- `Σ w[i] * 2^(32 i)`, word 0 first (R13). -/
def wordsVal : List Word → Nat
  | [] => 0
  | w :: ws => w.toNat + 2 ^ 32 * wordsVal ws

/-- The value with these words, word 0 first (R12, R13). -/
def ofWords (ws : List Word) : U256 := BitVec.ofNat 256 (wordsVal ws)

/-- The value whose word i is `f i`, the spec's `for i in 0..7: r.w[i] <- …`. -/
def buildWords (f : Nat → Word) : U256 := ofWords ((List.range 8).map f)

/-! ## Completion (R30, R32) -/

/-- The part of completion that success and error share: BUSY and the pending command are cleared, rsp_valid is
raised, RSP_ERR takes the code (R30, R32, R118). -/
def State.complete (s : State) (e : ErrCode) (l : LastCompletion) : State :=
  { s with
    busy := false, pending := none, rspValid := true, rspErr := e
    written := { s.written with err := true }, last := l, errChecked := false }

/-- Success with a value: RSP_R and RSP_ERR are written, nothing else (R32). -/
def State.succeedR (s : State) (v : U256) : State :=
  let t := s.complete 0#2 .wroteR
  { t with rspR := v, written := { t.written with r := true } }

/-- Success with a word: RSP_W and RSP_ERR are written, nothing else (R32). -/
def State.succeedW (s : State) (w : Word) : State :=
  let t := s.complete 0#2 .wroteW
  { t with rspW := w, written := { t.written with w := true } }

/-- Success with a text of 1 to 64 bytes: RSP_TXT, 0x00 beyond the text, RSP_TXT_LEN and RSP_ERR are written,
nothing else (R27, R32, R84). -/
def State.succeedTxt (s : State) (txt : List Byte) : State :=
  let t := s.complete 0#2 .wroteTxt
  { t with
    rspTxt := packBytes 512 txt, rspTxtLen := BitVec.ofNat 7 txt.length
    written := { t.written with txt := true, txtLen := true } }

/-- The error codes (R112). -/
def ErrKind.code : ErrKind → ErrCode
  | .invalidDigit => 1#2
  | .indexOutOfRange => 2#2
  | .illegalCommand => 3#2

/-- `raise`: the command ends with an error. Only RSP_ERR is written, every result register keeps its content; no
trap is taken, for the core has none, and completion is as for a success (R15, R32, R118). -/
def State.raise (s : State) (k : ErrKind) : State := s.complete k.code .errored

/-! ## The other clock edges -/

/-- An edge with `rst = 1`: BUSY is cleared, a command in progress is dropped, every response register becomes
unwritten (R124, R125). What is not the core's, the host's coming actions, what it presents and the value it read, stays.
The bits of the unwritten registers are those of `State.reset` (log entry 7). -/
def State.resetEdge (s : State) : State :=
  { State.reset with offered := s.offered, host := s.host, hostValue := s.hostValue }

/-- An accepting edge: the operands are sampled, BUSY is set, LAT(op) edges remain (R29, R30). -/
def State.accept (s : State) (c : Command) : State :=
  { s with
    busy := true, rspValid := false
    pending := some { cmd := c, remaining := Config.lat c.op c.txtLen.toNat } }

/-- An edge that neither accepts nor completes a command: rsp_valid falls (R30, R31). -/
def State.quietEdge (s : State) : State := { s with rspValid := false }

/-- An edge before the completing edge of the command in progress (R30, R31). -/
def State.waitEdge (s : State) (p : Pending) : State :=
  { s with rspValid := false, pending := some { p with remaining := p.remaining - 1 } }

/-! ## Reading the response registers -/

/-- Has the register been written since the last reset? (R33) -/
def State.isWritten (s : State) : RspReg → Bool
  | .rspR => s.written.r
  | .rspW => s.written.w
  | .rspTxt => s.written.txt
  | .rspTxtLen => s.written.txtLen
  | .rspErr => s.written.err

/-- The register's content, as its output port drives it (R24). -/
def State.content (s : State) : RspReg → HostValue
  | .rspR => .ofR s.rspR
  | .rspW => .ofW s.rspW
  | .rspTxt => .ofTxt s.rspTxt
  | .rspTxtLen => .ofTxtLen s.rspTxtLen
  | .rspErr => .ofErr s.rspErr

/-- Is the register one the last completed command wrote? (R32, R54, R132) -/
def LastCompletion.wrote : LastCompletion → RspReg → Bool
  | .noneYet, _ => false
  | _, .rspErr => true
  | .wroteR, .rspR => true
  | .wroteW, .rspW => true
  | .wroteTxt, .rspTxt => true
  | .wroteTxt, .rspTxtLen => true
  | _, _ => false

/-- The text RSP_TXT[0..RSP_TXT_LEN-1] (R27, R61). -/
def State.text (s : State) : List Byte := firstBytes s.rspTxt s.rspTxtLen.toNat

/-! ## Output ports and the record of R36 -/

/-- The output ports (R24). -/
structure Outputs where
  cmdReady : Bool
  rspValid : Bool
  rspR : U256
  rspW : Word
  rspTxt : BitVec 512
  rspTxtLen : BitVec 7
  rspErr : ErrCode
deriving DecidableEq, Repr

/-- What the ports show in a cycle where `rst` is driven so: the data ports drive their registers; `cmd_ready` is
the complement of BUSY, and both it and `rsp_valid` are 0 while `rst = 1` (R24, R29, R124). -/
def State.outputs (s : State) (rst : Bool) : Outputs :=
  { cmdReady := !rst && !s.busy
    rspValid := !rst && s.rspValid
    rspR := s.rspR, rspW := s.rspW, rspTxt := s.rspTxt, rspTxtLen := s.rspTxtLen, rspErr := s.rspErr }

/-- The record of R36, in which an unwritten register has no value. -/
structure SpecRecord where
  busy : Bool
  pending : Option Command
  rspR : Option U256
  rspW : Option Word
  rspTxt : Option (List Byte)
  rspErr : Option ErrCode
  rspValid : Bool
deriving DecidableEq, Repr

/-- `some v` for a written register, none for an unwritten one (R33, R36). -/
def ifWritten {α : Type} (b : Bool) (v : α) : Option α := if b then some v else none

/-- The state as R36 records it. -/
def State.specRecord (s : State) : SpecRecord :=
  { busy := s.busy, pending := s.pending.map Pending.cmd
    rspR := ifWritten s.written.r s.rspR
    rspW := ifWritten s.written.w s.rspW
    rspTxt := ifWritten s.written.txt s.text
    rspErr := ifWritten s.written.err s.rspErr
    rspValid := s.rspValid }

end Sys2Proof.Machine
end

