-- ==== Sys2Proof/Machine/Operands.lean ====
section
/-! DEFINITION. How each form decodes the scalar operand S (R55 to R57). The operands A and B are read whole, and
the text operand is decoded in Decode.lean (R58). -/

namespace Sys2Proof.Machine

/-- from_u32's operand: `zext_256(S)`, S in word 0 and 0 in words 1..7 (R55, R65). -/
def scalarValue (s : Word) : U256 := buildWords fun i => if i = 0 then s else 0#32

/-- The rotation amount `k = S mod 256` (R56). -/
def rotAmount (s : Word) : Nat := s.toNat % 256

/-- The word-rotation count `q = k div 32` (R56). -/
def rotWords (k : Nat) : Nat := k / 32

/-- The bit-shift count within a word, `m = k mod 32` (R56). -/
def rotBits (k : Nat) : Nat := k % 32

/-- Is the index in range: `S <= 7` (R57). -/
def indexInRange (s : Word) : Bool := decide (s.toNat ≤ 7)

/-- The word an index in range selects, `S[2:0]` (R57). -/
def indexSelect (s : Word) : Nat := (s.extractLsb' 0 3).toNat

end Sys2Proof.Machine
end

