-- ==== Sys2Proof/Machine/Accessor.lean ====
section
/-! DEFINITION. Family 43: the word accessor (R87, R88). -/

namespace Sys2Proof.Machine

/-- get_word: the selected word, or IndexOutOfRange where S > 7 (R87, R88). -/
def execGetWord (a : U256) (index : Word) (s : State) : Host.Outcome State Fault Refusal :=
  if indexInRange index then .next (s.succeedW (word a (indexSelect index)))
  else .next (s.raise .indexOutOfRange)

end Sys2Proof.Machine
end

