-- ==== Sys2Proof/Machine/Flags.lean ====
section
/-! DEFINITION. The carries and borrows that pass between words. The core has no flag: each of these lives inside
one operation, and the last of a chain is discarded (R34, R100). -/

namespace Sys2Proof.Machine

/-- The exact three-term sum of one word position, up to 33 bits wide (R89). -/
def wideSum (x y : Word) (c : Nat) : Nat := x.toNat + y.toNat + c

/-- The sum word, bits 31..0 of the exact sum (R89). -/
def sumWord (x y : Word) (c : Nat) : Word := BitVec.ofNat 32 (wideSum x y c)

/-- The carry out, bit 32 of the exact sum and no comparison of the sum with an operand (R89, R90). -/
def carryOut (x y : Word) (c : Nat) : Nat := wideSum x y c / 2 ^ 32

/-- The exact difference of one word position (R97). -/
def wideDiff (x y : Word) (bw : Int) : Int := x.toNat - y.toNat - bw

/-- The difference word: the exact difference, 2^32 more where it is negative (R97). -/
def diffWord (x y : Word) (bw : Int) : Word := BitVec.ofInt 32 (wideDiff x y bw)

/-- The borrow out: 1 where the exact difference is negative (R97). -/
def borrowOut (x y : Word) (bw : Int) : Int := if wideDiff x y bw < 0 then 1 else 0

end Sys2Proof.Machine
end

