-- ==== Sys2Proof/Machine/Arithmetic.lean ====
section
/-! DEFINITION. Family 44: the carry-propagate adder, the negation unit and the subtractor (R89 to R101). The
word-serial chains of the spec are the meanings; `subb` is the borrow chain it allows beside them (R97). -/

namespace Sys2Proof.Machine

/-- The carry chain over word pairs, word 0 first; the carry out of the last word is dropped (R89). -/
def carryChain : List (Word × Word) → Nat → List Word
  | [], _ => []
  | (x, y) :: rest, c => sumWord x y c :: carryChain rest (carryOut x y c)

/-- `ADDC(X, Y, c0)` (R89). -/
def addc (x y : U256) (c0 : Nat) : U256 := ofWords (carryChain ((words x).zip (words y)) c0)

/-- `~X`: every word complemented (R93). -/
def complementWords (x : U256) : U256 := buildWords fun i => ~~~(word x i)

/-- `NEG(X)`: the carry chain over the complemented words with nothing added but a carry-in of 1 at word 0 (R93). -/
def neg (x : U256) : U256 := ofWords (carryChain ((words x).map fun w => (~~~w, 0#32)) 1)

/-- The borrow chain over word pairs; the borrow out of the last word is dropped (R97). -/
def borrowChain : List (Word × Word) → Int → List Word
  | [], _ => []
  | (x, y) :: rest, bw => diffWord x y bw :: borrowChain rest (borrowOut x y bw)

/-- `SUBB(X, Y)` (R97). -/
def subb (x y : U256) : U256 := ofWords (borrowChain ((words x).zip (words y)) 0)

/-- add: `ADDC(A, B, 0)` (R91). -/
def execAdd (a b : U256) (s : State) : Host.Outcome State Fault Refusal :=
  .next (s.succeedR (addc a b 0))

/-- negate: `NEG(A)` (R94). -/
def execNegate (a : U256) (s : State) : Host.Outcome State Fault Refusal :=
  .next (s.succeedR (neg a))

/-- sub: `ADDC(A, NEG(B), 0)` (R96, R98). -/
def execSub (a b : U256) (s : State) : Host.Outcome State Fault Refusal :=
  .next (s.succeedR (addc a (neg b) 0))

end Sys2Proof.Machine
end

