-- ==== Sys2Proof/Machine/Construction.lean ====
section
/-! DEFINITION. Family 40: from_u32 and from_words (R65 to R67). Neither can fail. -/

namespace Sys2Proof.Machine

/-- from_u32: word 0 is S, words 1..7 are 0 (R65). -/
def execFromU32 (v : Word) (s : State) : Host.Outcome State Fault Refusal :=
  .next (s.succeedR (scalarValue v))

/-- from_words: word i of A becomes word i of RSP_R (R66). -/
def execFromWords (a : U256) (s : State) : Host.Outcome State Fault Refusal :=
  .next (s.succeedR (buildWords (word a)))

end Sys2Proof.Machine
end

