-- ==== Sys2Proof/Machine/HexFormatter.lean ====
section
/-! DEFINITION. Family 42: the hex formatter (R78 to R86). `formatHex` is the word-level rule of R80, the meaning;
`formatNumeral` is the value-level one the spec says is equal to it (R81). -/

namespace Sys2Proof.Machine

/-- The character of a nibble, lower case (R78). -/
def hexchar (d : Nat) : Byte := BitVec.ofNat 8 (if d < 10 then 0x30 + d else 0x57 + d)

/-- `nibble_j(A) = A[4j+3:4j]` (R81). -/
def nibbleAt {n : Nat} (v : BitVec n) (j : Nat) : Nat := (v.extractLsb' (4 * j) 4).toNat

/-- The character '0'. -/
def zeroChar : Byte := 0x30#8

/-- `hex8(x)`: the 8 characters of a word, most-significant nibble first (R80). -/
def hex8 (w : Word) : List Byte := (List.range 8).map fun p => hexchar (nibbleAt w (7 - p))

/-- The characters of a word without its leading zero digits (R80). -/
def hexTrimmed (w : Word) : List Byte := (hex8 w).dropWhile (· == zeroChar)

/-- The most-significant non-zero word, none for ZERO (R79, R80). -/
def topWord (a : U256) : Option Nat := (List.range 8).reverse.find? fun i => word a i != 0#32

/-- The words below `top` as full groups of 8 characters, the highest first (R80). -/
def hexLower (a : U256) (top : Nat) : List Byte := (List.range top).reverse.flatMap fun i => hex8 (word a i)

/-- The minimal lower-case numeral of a value, "0" for ZERO (R79, R80). -/
def formatHex (a : U256) : List Byte :=
  match topWord a with
  | none => [zeroChar]
  | some top => hexTrimmed (word a top) ++ hexLower a top

/-- The number of hex digits of a non-zero number, `floor(log16(n)) + 1` (R81). -/
def digitCount (n : Nat) : Nat := Nat.log 16 n + 1

/-- The value-level statement of the format (R79, R81). -/
def formatNumeral (a : U256) : List Byte :=
  if a = 0#256 then [zeroChar]
  else
    let d := digitCount a.toNat
    (List.range d).map fun p => hexchar (nibbleAt a (d - 1 - p))

/-- to_hex: RSP_TXT and RSP_TXT_LEN take the numeral (R84). -/
def execToHex (a : U256) (s : State) : Host.Outcome State Fault Refusal :=
  .next (s.succeedTxt (formatHex a))

end Sys2Proof.Machine
end

