-- ==== Sys2Proof/Machine/HexParser.lean ====
section
/-! DEFINITION. Family 41: the hex parser (R68 to R77). `parseHex` is the meaning; `parseGroups` and `parseSerial`
are the two datapaths the spec says give the same value (R73, R76). -/

namespace Sys2Proof.Machine

/-- The nibble of a hex digit, none for every other byte (R68, R69). -/
def nib? (c : Byte) : Option Nat :=
  let n := c.toNat
  if 0x30 ≤ n ∧ n ≤ 0x39 then some (n - 0x30)
  else if 0x61 ≤ n ∧ n ≤ 0x66 then some (n - 0x57)
  else if 0x41 ≤ n ∧ n ≤ 0x46 then some (n - 0x37)
  else none

/-- Is the byte one of the 22 hex digits? (R68) -/
def isHexDigit (c : Byte) : Bool := (nib? c).isSome

/-- The nibble of a digit. On any other byte `nib` is undefined in the spec, and no meaning reads it there: the
text is validated first (R68, R75; log entry 18). -/
def nib (c : Byte) : Nat := (nib? c).getD 0

/-- The significant digits: the last `min(L, 64)` characters (R71). -/
def significant (t : List Byte) : List Byte := t.drop (t.length - min t.length 64)

/-- `Σ nib(digit j) * 16^j` over digits given last character first, so that j counts from the end (R40, R72). -/
def digitsVal : List Byte → Nat
  | [] => 0
  | c :: cs => nib c + 16 * digitsVal cs

/-- The parsed value: the number the significant digits denote (R72). -/
def parseHex (t : List Byte) : U256 := BitVec.ofNat 256 (digitsVal (significant t).reverse)

/-- Word i by groups of up to 8 digits from the end of the text (R73). -/
def groupWord (t : List Byte) (i : Nat) : Word :=
  BitVec.ofNat 32 (digitsVal ((t.reverse.drop (8 * i)).take 8))

/-- The word-grouping datapath (R73). -/
def parseGroups (t : List Byte) : U256 := buildWords (groupWord t)

/-- The digit-serial datapath: for each character the accumulator moves up one nibble and loses its top one (R76). -/
def parseSerial (t : List Byte) : U256 :=
  t.foldl (fun acc c => BitVec.ofNat 256 (acc.toNat * 16 + nib c)) 0#256

/-- from_hex: a reserved length first, then a byte that is no digit, then the value (R75, R117). The whole text is
validated, the part that truncation discards with it (R70). -/
def execFromHex (tlen : Nat) (t : List Byte) (s : State) : Host.Outcome State Fault Refusal :=
  if Config.hexInMax < tlen then .next (s.raise .illegalCommand)
  else if t.all isHexDigit then .next (s.succeedR (parseHex t))
  else .next (s.raise .invalidDigit)

end Sys2Proof.Machine
end

