-- ==== Sys2Proof/Machine/Reserved.lean ====
section
/-! DEFINITION. The reserved OP values 0xA to 0xF: each command is accepted and completes with IllegalCommand,
writing only RSP_ERR (R59, R115). One definition for each row of the table. -/

namespace Sys2Proof.Machine

/-- OP 0xA (R59, R115). -/
def execReservedA (s : State) : Host.Outcome State Fault Refusal := .next (s.raise .illegalCommand)

/-- OP 0xB (R59, R115). -/
def execReservedB (s : State) : Host.Outcome State Fault Refusal := .next (s.raise .illegalCommand)

/-- OP 0xC (R59, R115). -/
def execReservedC (s : State) : Host.Outcome State Fault Refusal := .next (s.raise .illegalCommand)

/-- OP 0xD (R59, R115). -/
def execReservedD (s : State) : Host.Outcome State Fault Refusal := .next (s.raise .illegalCommand)

/-- OP 0xE (R59, R115). -/
def execReservedE (s : State) : Host.Outcome State Fault Refusal := .next (s.raise .illegalCommand)

/-- OP 0xF (R59, R115). -/
def execReservedF (s : State) : Host.Outcome State Fault Refusal := .next (s.raise .illegalCommand)

end Sys2Proof.Machine
end

