-- ==== Sys2Proof/Machine/Rotation.lean ====
section
/-! DEFINITION. Family 45: the rotators (R102 to R110), in the word-level form of R103 and R106; the bit-level
definitions of R102 and R105 are stated of them. -/

namespace Sys2Proof.Machine

/-- One result word of a left rotation: `hi` moved up by m bits, the top m bits of `lo` below it; with m = 0 nothing
of `lo` (R103, R108). -/
def joinLeft (hi lo : Word) (m : Nat) : Word := if m = 0 then hi else (hi <<< m) ||| (lo >>> (32 - m))

/-- One result word of a right rotation (R106, R108). -/
def joinRight (hi lo : Word) (m : Nat) : Word := if m = 0 then lo else (lo >>> m) ||| (hi <<< (32 - m))

/-- `ROL(X, k)` for k in 0..255; word indices are taken modulo 8, and q <= 7 (R103). -/
def rol (x : U256) (k : Nat) : U256 :=
  let q := rotWords k
  buildWords fun i => joinLeft (word x ((i + 8 - q) % 8)) (word x ((i + 7 - q) % 8)) (rotBits k)

/-- `ROR(X, k)` for k in 0..255 (R106). -/
def ror (x : U256) (k : Nat) : U256 :=
  let q := rotWords k
  buildWords fun i => joinRight (word x ((i + q + 1) % 8)) (word x ((i + q) % 8)) (rotBits k)

/-- rotate_left: by `S mod 256` (R104). -/
def execRotateLeft (a : U256) (n : Word) (s : State) : Host.Outcome State Fault Refusal :=
  .next (s.succeedR (rol a (rotAmount n)))

/-- rotate_right: by `S mod 256` (R107). -/
def execRotateRight (a : U256) (n : Word) (s : State) : Host.Outcome State Fault Refusal :=
  .next (s.succeedR (ror a (rotAmount n)))

end Sys2Proof.Machine
end

