-- ==== Sys2Proof/Machine/Dispatch.lean ====
section
/-! DEFINITION. What each instruction does at its completing edge (R30, R32): one arm per constructor. -/

namespace Sys2Proof.Machine

/-- The completing edge of an instruction. -/
def exec (i : Instr) (s : State) : Host.Outcome State Fault Refusal :=
  match i with
  | .fromU32 v => Sys2Proof.Machine.execFromU32 v s
  | .fromWords a => Sys2Proof.Machine.execFromWords a s
  | .fromHex tlen t => Sys2Proof.Machine.execFromHex tlen t s
  | .toHex a => Sys2Proof.Machine.execToHex a s
  | .getWord a index => Sys2Proof.Machine.execGetWord a index s
  | .add a b => Sys2Proof.Machine.execAdd a b s
  | .negate a => Sys2Proof.Machine.execNegate a s
  | .sub a b => Sys2Proof.Machine.execSub a b s
  | .rotateLeft a n => Sys2Proof.Machine.execRotateLeft a n s
  | .rotateRight a n => Sys2Proof.Machine.execRotateRight a n s
  | .reservedA => Sys2Proof.Machine.execReservedA s
  | .reservedB => Sys2Proof.Machine.execReservedB s
  | .reservedC => Sys2Proof.Machine.execReservedC s
  | .reservedD => Sys2Proof.Machine.execReservedD s
  | .reservedE => Sys2Proof.Machine.execReservedE s
  | .reservedF => Sys2Proof.Machine.execReservedF s

end Sys2Proof.Machine
end

