-- ==== Sys2Proof/Machine/Handshake.lean ====
section
/-! DEFINITION. The core's clock edge (R29 to R31, R124) and the host's actions (R129 to R132). -/

namespace Sys2Proof.Machine

/-- The pins of an idle cycle: no reset, no command presented. -/
def idlePins : Pins := { rst := false, cmdValid := false, cmd := Command.bare 0#4 }

/-- The pins of a cycle in which the host presents an instruction. -/
def presentPins (i : Instr) : Pins := { rst := false, cmdValid := true, cmd := encode i }

/-- An edge while a command is in progress: its last edge completes it, so its instruction runs; before that it
only comes one edge nearer (R30). -/
def busyEdge (s : State) : Host.Outcome State Fault Refusal :=
  match s.pending with
  | none => .next s.quietEdge
  | some p => if p.remaining ≤ 1 then exec (decode p.cmd) s else .next (s.waitEdge p)

/-- One rising edge of `clk`: reset before all else; while BUSY, `cmd_valid` is ignored; otherwise a command
presented is accepted (R29, R30, R124). -/
def clockEdge (p : Pins) (s : State) : Host.Outcome State Fault Refusal :=
  if p.rst then .next s.resetEdge
  else if s.busy then busyEdge s
  else if p.cmdValid then .next (s.accept p.cmd)
  else .next s.quietEdge

/-- The host has read a register: the value is the host's, and no register of the core changes (R44). Reading
RSP_ERR is the check R131 asks for. -/
def State.deliver (s : State) (r : RspReg) : State :=
  { s with hostValue := some (s.content r), errChecked := s.errChecked || r == .rspErr }

/-- The host reads a register as the result, or the error code, of the last command. It may not before the
completion (R130), nor a register that is unwritten (R33, R123, D9) or that the last command did not write (R123,
R132), nor a result before RSP_ERR (R131). -/
def hostReadResult (r : RspReg) (s : State) : Host.Outcome State Fault Refusal :=
  if s.busy then .fault (.readBeforeCompletion r)
  else if !s.isWritten r then .fault (.readUnwritten r)
  else if !s.last.wrote r then .fault (.readStale r)
  else if r != .rspErr && !s.errChecked then .fault (.errorNotChecked r)
  else .next (s.deliver r)

/-- The host reads a register for what an earlier command left there, which stays readable until the next command
that writes it completes, or until reset (R130). An unwritten one has no value and its read is a host fault (R33, R123, D9).
A result register is used only after RSP_ERR has been read since the last completion (R131). -/
def hostReadStanding (r : RspReg) (s : State) : Host.Outcome State Fault Refusal :=
  if !s.isWritten r then .fault (.readUnwritten r)
  else if r != .rspErr && !s.errChecked then .fault (.errorNotChecked r)
  else .next (s.deliver r)

/-- Does the host, with these pins, break its obligation to hold a command it presented while cmd_ready was 0:
is `cmd_valid` lowered, or the command another, at an edge without reset? (R129, D28; log entry 12) -/
def State.breaksHold (s : State) (p : Pins) : Bool :=
  match s.offered with
  | none => false
  | some c => !p.rst && !(p.cmdValid && p.cmd == c)

/-- After the edge: the command presented while cmd_ready was 0, which has to be held on (R124, R129). -/
def State.noteOffer (s : State) (p : Pins) : State :=
  { s with offered := if p.cmdValid && (p.rst || s.busy) then some p.cmd else none }

/-- One edge driven by the host: a host fault where it does not hold its command (D28: not a core behaviour), else
the core's clock edge. -/
def hostEdge (p : Pins) (s : State) : Host.Outcome State Fault Refusal :=
  if s.breaksHold p then .fault .commandNotHeld else clockEdge p (s.noteOffer p)

/-- The host's coming actions after this one. -/
def State.withHost (s : State) (h : List HostEvent) : State := { s with host := h }

/-- One action of the host, `rest` being the actions after it. `issue` and `await` stay the next action until
the command is accepted, or is no longer in progress. -/
def hostEvent (ev : HostEvent) (rest : List HostEvent) (s : State) : Host.Outcome State Fault Refusal :=
  match ev with
  | .edge p => hostEdge p (s.withHost rest)
  | .issue i =>
    if i.wf then hostEdge (presentPins i) (if s.busy then s else s.withHost rest)
    else .refused .notPresentable
  | .await => if s.busy then hostEdge idlePins s else .next (s.withHost rest)
  | .readResult r => hostReadResult r (s.withHost rest)
  | .readStanding r => hostReadStanding r (s.withHost rest)

/-- The step: the host's next action, or, where it has none, an edge of an idle cycle, for the clock goes on (R29). -/
def nextStep (s : State) : Host.Outcome State Fault Refusal :=
  match s.host with
  | [] => hostEdge idlePins s
  | ev :: rest => hostEvent ev rest s

/-- The state in which the next step is the completing edge of a command: it has been accepted, one edge remains,
the host presents no other command, and drives an idle cycle (log entry 8). -/
def State.atCompletionOf (s : State) (c : Command) : State :=
  { s with
    busy := true, pending := some { cmd := c, remaining := 1 }, offered := none
    host := .edge idlePins :: s.host }

end Sys2Proof.Machine
end

