-- ==== Sys2Proof/Machine/Step.lean ====
section
/-! DEFINITION. One step of the machine, and how the host's checks place an instruction before it. -/

namespace Sys2Proof.Machine

/-- One step: one rising edge of `clk`, or one read by the host between edges. -/
def step (s : State) : Host.Outcome State Fault Refusal := nextStep s

/-- `s` with the command of a table word accepted and at its completing edge, so that the very next step runs it.
The core fetches nothing (R49): a command comes from the host, and this stands for its issue (log entry 8). -/
def State.withFetchWord (s : State) (_nbits w : Nat) : State := s.atCompletionOf (Command.ofTableWord w)

end Sys2Proof.Machine
end

