-- ==== Sys2Proof/Machine/Listing.lean ====
section
/-! DEFINITION. Listings (R61 to R64): the host's notation for sequences of commands. A line is abstract syntax here
(its spelling in characters is the host's, log entry 9), and each command runs as one atomic step (R36). -/

namespace Sys2Proof.Machine

/-- What a host-side name is bound to (R61). -/
inductive NameValue
  | value (v : U256)
  | word (w : Word)
  | text (t : List Byte)
  | error (k : ErrKind)
deriving DecidableEq, Repr

/-- The host's names, the latest binding first. -/
abbrev Names := List (String × NameValue)

/-- An operand `A=` or `B=`: a hex number, a list of 8 words with word 0 first, or a name bound before (R62). -/
inductive ValueOperand
  | number (n : Nat)
  | wordList (ws : List Word)
  | name (x : String)
deriving DecidableEq, Repr

/-- The mnemonics of R53 with the operands of their forms (R61); S is a number, T the bytes of a quoted string (R62).
That `S=` and `T=` take no bound name is the model's choice: R61's template has one at any operand, R62 names only
`A=` and `B=` (log entry 20). -/
inductive LineOp
  | fromU32 (s : Nat)
  | fromWords (a : ValueOperand)
  | fromHex (t : List Byte)
  | toHex (a : ValueOperand)
  | getWord (a : ValueOperand) (s : Nat)
  | add (a b : ValueOperand)
  | negate (a : ValueOperand)
  | sub (a b : ValueOperand)
  | rotateLeft (a : ValueOperand) (s : Nat)
  | rotateRight (a : ValueOperand) (s : Nat)
deriving DecidableEq, Repr

/-- A command line with its optional `-> name` (R61). -/
structure Line where
  op : LineOp
  result : Option String
deriving DecidableEq, Repr

/-- The pseudo-instructions (R64). The amount n of rotr_by_rotl, which R64 calls a host-side value name, is the number
it stands for, of any size: its expansion reduces it below 256 (log entry 19). -/
inductive Pseudo
  | zero | one | maxValue
  | copy (a : ValueOperand)
  | inc (a : ValueOperand)
  | dec (a : ValueOperand)
  | not (a : ValueOperand)
  | rotrByRotl (a : ValueOperand) (n : Nat)
deriving DecidableEq, Repr

/-- The name of the intermediate value of `not`, R64's `t`: a name a listing does not use for itself. -/
def intermediateName : String := "$t"

/-- The expansion of `pseudo -> name` (R64; log entry 19 for n, log entry 9 for the intermediate name). -/
def Pseudo.expand (p : Pseudo) (result : Option String) : List Line :=
  match p with
  | .zero => [{ op := .fromU32 0, result }]
  | .one => [{ op := .fromU32 1, result }]
  | .maxValue => [{ op := .fromWords (.wordList (List.replicate 8 0xFFFFFFFF#32)), result }]
  | .copy a => [{ op := .fromWords a, result }]
  | .inc a => [{ op := .add a (.number 1), result }]
  | .dec a => [{ op := .sub a (.number 1), result }]
  | .not a =>
    [{ op := .negate a, result := some intermediateName },
     { op := .sub (.name intermediateName) (.number 1), result }]
  | .rotrByRotl a n => [{ op := .rotateLeft a ((256 - n % 256) % 256), result }]

/-- The value an operand denotes: `U256` of a number of at most 64 hex digits, a word list of exactly 8, or a name
bound to a value (R62). -/
def ValueOperand.resolve (names : Names) : ValueOperand → Option U256
  | .number n => if n < 2 ^ 256 then some (BitVec.ofNat 256 n) else none
  | .wordList ws => if ws.length = 8 then some (ofWords ws) else none
  | .name x =>
    match names.lookup x with
    | some (.value v) => some v
    | _ => none

/-- The scalar a literal denotes: a number in [0, 2^32) (R62). -/
def resolveScalar (n : Nat) : Option Word := if n < 2 ^ 32 then some (BitVec.ofNat 32 n) else none

/-- The command a line encodes (R63). -/
def LineOp.resolve (names : Names) : LineOp → Option Instr
  | .fromU32 s => (resolveScalar s).map .fromU32
  | .fromWords a => (a.resolve names).map .fromWords
  | .fromHex t => some (.ofText t)
  | .toHex a => (a.resolve names).map .toHex
  | .getWord a s => (a.resolve names).bind fun v => (resolveScalar s).map (.getWord v)
  | .add a b => (a.resolve names).bind fun v => (b.resolve names).map (.add v)
  | .negate a => (a.resolve names).map .negate
  | .sub a b => (a.resolve names).bind fun v => (b.resolve names).map (.sub v)
  | .rotateLeft a s => (a.resolve names).bind fun v => (resolveScalar s).map (.rotateLeft v)
  | .rotateRight a s => (a.resolve names).bind fun v => (resolveScalar s).map (.rotateRight v)

/-- The error kind of a code, none for success (R112). -/
def ErrKind.ofCode (e : ErrCode) : Option ErrKind :=
  match e.toNat with
  | 1 => some .invalidDigit
  | 2 => some .indexOutOfRange
  | 3 => some .illegalCommand
  | _ => none

/-- What `-> name` binds after a command of this form: the error kind, or the form's result (R61). -/
def resultName (f : Form) (s : State) : NameValue :=
  match ErrKind.ofCode s.rspErr, f with
  | some k, _ => .error k
  | none, .fmtASW => .word s.rspW
  | none, .fmtATxt => .text s.text
  | none, _ => .value s.rspR

/-- Bind the result of a line, where it has a name. -/
def bindResult (x : Option String) (v : NameValue) (names : Names) : Names :=
  match x with
  | some x => (x, v) :: names
  | none => names

/-- Run one line: none where an operand denotes nothing or the ports cannot carry the command. -/
def Line.run (l : Line) (names : Names) (s : State) : Option (Names × State) :=
  match l.op.resolve names with
  | none => none
  | some i =>
    if i.wf then
      match exec i s with
      | .next t => some (bindResult l.result (resultName i.form t) names, t)
      | .fault _ => none
      | .refused _ => none
    else none

/-- Run a listing, line by line (R47, R61). -/
def runListing : List Line → Names → State → Option (Names × State)
  | [], names, s => some (names, s)
  | l :: ls, names, s =>
    match l.run names s with
    | none => none
    | some (names', s') => runListing ls names' s'

end Sys2Proof.Machine
end

