-- ==== Sys2Proof/Safety.lean ====
section
/-! DEFINITION. What every reachable state satisfies, and what a safe step is. -/

namespace Sys2Proof.Machine

/-- Is the byte a character the formatter writes, a digit or a lower-case letter a to f? (R78) -/
def isOutputChar (c : Byte) : Bool := (List.range 16).any fun d => c == hexchar d

/-- RSP_TXT and RSP_TXT_LEN hold a text of 1 to 64 output characters with 0x00 beyond it, which begins with '0'
only where it is "0" (R27, R79, R82, I12). -/
def State.TextWellFormed (s : State) : Prop :=
  ∃ t : List Byte, 1 ≤ t.length ∧ t.length ≤ 64 ∧ t.all isOutputChar = true ∧
    (t.head? = some zeroChar → t = [zeroChar]) ∧
    s.rspTxt = packBytes 512 t ∧ s.rspTxtLen = BitVec.ofNat 7 t.length

/-- What the ghost of the last completion says of the registers (R32, R33, R35). -/
def State.LastAgrees (s : State) : Prop :=
  match s.last with
  | .noneYet => s.written = Written.nothing ∧ s.errChecked = false
  | .errored => s.written.err = true ∧ s.rspErr ≠ 0#2
  | .wroteR => s.written.err = true ∧ s.rspErr = 0#2 ∧ s.written.r = true
  | .wroteW => s.written.err = true ∧ s.rspErr = 0#2 ∧ s.written.w = true
  | .wroteTxt => s.written.err = true ∧ s.rspErr = 0#2 ∧ s.written.txt = true

/-- The invariant of the machine: it holds at reset, and every step keeps it. -/
structure State.Inv (s : State) : Prop where
  /-- BUSY is 1 exactly while a command is in progress (R29, R36). -/
  busy_iff_pending : s.busy = s.pending.isSome
  /-- A command in progress has from 1 to LAT(op) edges left (R30, R134). -/
  remaining_bounds : ∀ p, s.pending = some p →
    1 ≤ p.remaining ∧ p.remaining ≤ Config.lat p.cmd.op p.cmd.txtLen.toNat
  /-- rsp_valid is seen only while no command is in progress, and with RSP_ERR written (R30, R32). -/
  valid_after_completion : s.rspValid = true → s.busy = false ∧ s.written.err = true
  /-- to_hex writes RSP_TXT and RSP_TXT_LEN together (R26). -/
  text_written_together : s.written.txt = s.written.txtLen
  /-- A written text register holds a text of the formatter (R27). -/
  text_well_formed : s.written.txt = true → s.TextWellFormed
  /-- The ghost of the last completion agrees with the registers. -/
  last_agrees : s.LastAgrees

/-- A state from which the next step goes on: neither a host fault nor a refusal (R123). -/
def State.Safe (s : State) : Prop := ∃ t, step s = .next t

end Sys2Proof.Machine
end

