-- ==== Sys2Proof/Certificates/Slice0/Obligations.lean ====
section
/-! DEFINITION. The statements about the model. The states a command may leave are written out field by field in
`Claims`, apart from the model's own operations, so each statement that names one states the whole frame with it. -/

namespace Sys2Proof.Claims

open Sys2Proof.Machine

/-- What every completion leaves beside the result: BUSY 0, nothing pending, rsp_valid 1, RSP_ERR the code and
written; the host's coming actions, what it has to hold, the value it read and every other register are as before
(R30, R32). The fields `last` and `errChecked` are the model's own ghosts, not registers (log entry 5). -/
def done (s : State) (e : ErrCode) (l : LastCompletion) : State :=
  { s with
    busy := false, pending := none, rspValid := true
    rspErr := e, written := { s.written with err := true }, last := l, errChecked := false }

/-- After an error with code e: RSP_ERR alone is written (R32). -/
def errorDone (s : State) (e : ErrCode) : State := done s e .errored

/-- After a success with a value: RSP_R and RSP_ERR alone are written (R32). -/
def valueDone (s : State) (v : U256) : State :=
  { done s 0#2 .wroteR with rspR := v, written := { s.written with r := true, err := true } }

/-- After a success with a word: RSP_W and RSP_ERR alone are written (R32). -/
def wordDone (s : State) (w : Word) : State :=
  { done s 0#2 .wroteW with rspW := w, written := { s.written with w := true, err := true } }

/-- After a success with a text register of these contents: RSP_TXT, RSP_TXT_LEN and RSP_ERR alone are written (R32). -/
def textDone (s : State) (txt : BitVec 512) (len : BitVec 7) : State :=
  { done s 0#2 .wroteTxt with
    rspTxt := txt, rspTxtLen := len, written := { s.written with txt := true, txtLen := true, err := true } }

/-- A text register holds the text t: RSP_TXT_LEN its length, byte p its p-th character, 0x00 beyond it (R27). -/
def holdsText (txt : BitVec 512) (len : BitVec 7) (t : List Byte) : Prop :=
  len.toNat = t.length ∧ ∀ p, p < 64 → txt.extractLsb' (8 * p) 8 = t.getD p 0x00#8

/-- The lower-case letter of an upper-case one of A to F; every other byte itself. -/
def lowerCase (c : Byte) : Byte := if 0x41 ≤ c.toNat ∧ c.toNat ≤ 0x46 then c + 0x20#8 else c

/-- The response registers, and which of them are written, are the same in two states. -/
def sameResponse (s t : State) : Prop :=
  t.rspR = s.rspR ∧ t.rspW = s.rspW ∧ t.rspTxt = s.rspTxt ∧ t.rspTxtLen = s.rspTxtLen ∧
    t.rspErr = s.rspErr ∧ t.written = s.written

/-- The command the host presents with these pins, none where cmd_valid is 0. -/
def presented (p : Pins) : Option Command := if p.cmdValid then some p.cmd else none

/-- The host holds a command it must hold: with these pins it presents that very command (R129). -/
def holds (offer : Option Command) (p : Pins) : Prop := ∀ c, offer = some c → presented p = some c

/-- At edges while a command is in progress, with these pins one after the other, the host holds whatever it
presents, and `offer` before them (R129). -/
def holdsThrough (offer : Option Command) : List Pins → Prop
  | [] => True
  | p :: ps => holds offer p ∧ holdsThrough (presented p) ps

/-- What the host has to hold after those edges. -/
def offerAfter (offer : Option Command) : List Pins → Option Command
  | [] => offer
  | p :: ps => offerAfter (presented p) ps

/-- Running one line that expands a pseudo-instruction gives its result name this value. -/
def binds (p : Pseudo) (names : Names) (s : State) (v : U256) : Prop :=
  ∀ x, ∃ names' t, runListing (p.expand (some x)) names s = some (names', t) ∧ names'.lookup x = some (.value v)

end Sys2Proof.Claims

open Sys2Proof Sys2Proof.Machine Sys2Proof.Claims

/-! ## Values and parameters -/

/-- R13: a value is the sum of its words with weight 2^(32 i), and word i is bits [32i+31:32i] (R12). -/
def Obligations.ValueIsWeightedSumOfWords : Prop :=
  ∀ v : U256, v.toNat = (Finset.range 8).sum (fun i => (word v i).toNat * 2 ^ (32 * i)) ∧
    ∀ i b, i < 8 → b < 32 → (word v i).getLsbD b = v.getLsbD (32 * i + b)

/-- R11, R134: the constraints on the open parameters. -/
def Obligations.OpenParametersMeetTheirConstraints : Prop :=
  72 ≤ Config.hexInMax ∧ Config.hexInMax < 2 ^ Config.tlenBits ∧
    (∀ op tlen, 1 ≤ Config.lat op tlen ∧ Config.lat op tlen ≤ Config.latMax) ∧
    ∀ op tlen tlen', op ≠ 2#4 → Config.lat op tlen = Config.lat op tlen'

/-! ## Encoding -/

/-- R53, R58, R59: each OP value, whatever the other ports carry, decodes to its row's instruction with the operands
of its form. -/
def Obligations.EveryOpValueDecodesToItsRow : Prop :=
  ∀ c : Command,
    (c.op = 0b0000#4 → decode c = .fromU32 c.ops) ∧
    (c.op = 0b0001#4 → decode c = .fromWords c.opa) ∧
    (c.op = 0b0010#4 → c.txtLen.toNat ≤ Config.hexInMax → decode c = .fromHex c.txtLen.toNat
      ((List.range c.txtLen.toNat).map fun p => c.txtIn.extractLsb' (8 * p) 8)) ∧
    (c.op = 0b0010#4 → Config.hexInMax < c.txtLen.toNat → ∃ t, decode c = .fromHex c.txtLen.toNat t) ∧
    (c.op = 0b0011#4 → decode c = .toHex c.opa) ∧
    (c.op = 0b0100#4 → decode c = .getWord c.opa c.ops) ∧
    (c.op = 0b0101#4 → decode c = .add c.opa c.opb) ∧
    (c.op = 0b0110#4 → decode c = .negate c.opa) ∧
    (c.op = 0b0111#4 → decode c = .sub c.opa c.opb) ∧
    (c.op = 0b1000#4 → decode c = .rotateLeft c.opa c.ops) ∧
    (c.op = 0b1001#4 → decode c = .rotateRight c.opa c.ops) ∧
    (c.op = 0b1010#4 → decode c = .reservedA) ∧ (c.op = 0b1011#4 → decode c = .reservedB) ∧
    (c.op = 0b1100#4 → decode c = .reservedC) ∧ (c.op = 0b1101#4 → decode c = .reservedD) ∧
    (c.op = 0b1110#4 → decode c = .reservedE) ∧ (c.op = 0b1111#4 → decode c = .reservedF)

/-- R53: the four bits of one row of each family, written out, with the operands 0, decode to the row's instruction. -/
def Obligations.WrittenOutWordsDecode : Prop :=
  decodeTableWord 8 0b0000 = some (.fromU32 0#32) ∧ decodeTableWord 8 0b0010 = some (.fromHex 0 []) ∧
    decodeTableWord 8 0b0011 = some (.toHex 0#256) ∧ decodeTableWord 8 0b0100 = some (.getWord 0#256 0#32) ∧
    decodeTableWord 8 0b0111 = some (.sub 0#256 0#256) ∧
    decodeTableWord 8 0b1001 = some (.rotateRight 0#256 0#32) ∧ decodeTableWord 8 0b1100 = some .reservedC

/-- Every well-formed instruction, with every operand at every value, is what its encoding decodes to. -/
def Obligations.DecodeOfEncodeIsTheInstruction : Prop :=
  ∀ i : Instr, i.wf = true → decode (encode i) = i

/-- R60, R54: what any ports decode to is well-formed, and encoding it again gives the OP and every operand its form
reads, the text up to its length. -/
def Obligations.EncodeOfDecodeRestoresTheReadPorts : Prop :=
  ∀ c : Command, (decode c).wf = true ∧ (encode (decode c)).op = c.op ∧
    ((decode c).form.readsA = true → (encode (decode c)).opa = c.opa) ∧
    ((decode c).form.readsB = true → (encode (decode c)).opb = c.opb) ∧
    ((decode c).form.readsS = true → (encode (decode c)).ops = c.ops) ∧
    ((decode c).form.readsT = true → (encode (decode c)).txtLen = c.txtLen ∧
      (c.txtLen.toNat ≤ Config.hexInMax → ∀ p, p < c.txtLen.toNat →
        byteAt (encode (decode c)).txtIn p = byteAt c.txtIn p))

/-- R25, R54, R77: two commands with the same OP that agree on the operands the form reads, for a text on the bytes
below its length, are the same instruction, whatever the other ports and bytes carry. -/
def Obligations.UnreadPortsAreIgnored : Prop :=
  ∀ c d : Command, c.op = d.op →
    ((decode c).form.readsA = true → c.opa = d.opa) →
    ((decode c).form.readsB = true → c.opb = d.opb) →
    ((decode c).form.readsS = true → c.ops = d.ops) →
    ((decode c).form.readsT = true → c.txtLen = d.txtLen ∧
      (c.txtLen.toNat ≤ Config.hexInMax → ∀ p, p < c.txtLen.toNat → byteAt c.txtIn p = byteAt d.txtIn p)) →
    decode c = decode d

/-! ## Construction -/

/-- R65: from_u32 completes with S in word 0, 0 in words 1 to 7, which is the number S. -/
def Obligations.FromU32PutsScalarInWordZero : Prop :=
  ∀ (v : Word) (s : State), ∃ r, exec (.fromU32 v) s = .next (valueDone s r) ∧
    word r 0 = v ∧ (∀ i, 1 ≤ i → i < 8 → word r i = 0#32) ∧ r.toNat = v.toNat

/-- R66: from_words completes with the words of A in their order, which is A. -/
def Obligations.FromWordsCopiesTheWords : Prop :=
  ∀ (a : U256) (s : State), exec (.fromWords a) s = .next (valueDone s a)

/-! ## Hex parser -/

/-- R68: the 22 hex digits with their nibbles, and every other byte no digit. -/
def Obligations.HexDigitTable : Prop :=
  ∀ c : Byte,
    (0x30 ≤ c.toNat → c.toNat ≤ 0x39 → isHexDigit c = true ∧ nib c = c.toNat - 0x30) ∧
    (0x61 ≤ c.toNat → c.toNat ≤ 0x66 → isHexDigit c = true ∧ nib c = c.toNat - 0x57) ∧
    (0x41 ≤ c.toNat → c.toNat ≤ 0x46 → isHexDigit c = true ∧ nib c = c.toNat - 0x37) ∧
    ((c.toNat ≤ 0x2F ∨ (0x3A ≤ c.toNat ∧ c.toNat ≤ 0x40) ∨ (0x47 ≤ c.toNat ∧ c.toNat ≤ 0x60) ∨
      0x67 ≤ c.toNat) → isHexDigit c = false)

/-- R72, R75: from_hex of a text of digits, of any legal length, completes with the sum of the last 64 digits, each
with weight 16^j, j counted from the end; which is the number of all the digits modulo 2^256. -/
def Obligations.FromHexGivesTheNumberOfTheLastDigits : Prop :=
  ∀ (tlen : Nat) (t : List Byte) (s : State), tlen ≤ Config.hexInMax → t.length = tlen →
    (∀ c ∈ t, isHexDigit c = true) →
    ∃ r, exec (.fromHex tlen t) s = .next (valueDone s r) ∧
      r.toNat = ((Finset.range (min tlen 64)).sum fun j => nib (t.getD (tlen - 1 - j) 0#8) * 16 ^ j) ∧
      r.toNat = ((Finset.range tlen).sum fun j => nib (t.getD (tlen - 1 - j) 0#8) * 16 ^ j) % 2 ^ 256

/-- R70: a byte that is no hex digit, anywhere in the text, is InvalidDigit (code 1), and RSP_ERR alone is written;
'x', 'X', space, '+', '-', '_', NUL and every byte from 0x80 up are such bytes. -/
def Obligations.FromHexRejectsAnyNonDigit : Prop :=
  (∀ (tlen : Nat) (t : List Byte) (s : State) (p : Nat) (h : p < t.length), tlen ≤ Config.hexInMax →
    t.length = tlen → isHexDigit t[p] = false → exec (.fromHex tlen t) s = .next (errorDone s 1#2)) ∧
  (∀ c ∈ [0x78#8, 0x58#8, 0x20#8, 0x2B#8, 0x2D#8, 0x5F#8, 0x00#8], isHexDigit c = false) ∧
  ∀ c : Byte, 0x80 ≤ c.toNat → isHexDigit c = false

/-- R58, R75, R117: a reserved length is IllegalCommand (code 3), before any byte is looked at. -/
def Obligations.FromHexRejectsAReservedLength : Prop :=
  ∀ (tlen : Nat) (t : List Byte) (s : State), Config.hexInMax < tlen →
    exec (.fromHex tlen t) s = .next (errorDone s 3#2)

/-- R69: upper-case and lower-case letters of the same digit give the same response, in any mixture. -/
def Obligations.FromHexIgnoresLetterCase : Prop :=
  (∀ c : Byte, isHexDigit (lowerCase c) = isHexDigit c ∧ (isHexDigit c = true → nib (lowerCase c) = nib c)) ∧
  ∀ (tlen : Nat) (t : List Byte) (s : State),
    exec (.fromHex tlen (t.map lowerCase)) s = exec (.fromHex tlen t) s

/-- R71: the digits before the last 64 are discarded without any report. -/
def Obligations.FromHexDiscardsTheDigitsBeforeTheLast64 : Prop :=
  ∀ (front t : List Byte) (s : State), t.length = 64 → (front ++ t).length ≤ Config.hexInMax →
    (∀ c ∈ front, isHexDigit c = true) →
    exec (.fromHex (front ++ t).length (front ++ t)) s = exec (.fromHex 64 t) s

/-- R74: the empty text, and a text of digits whose last 64 are all '0', give ZERO; zeros before a text change nothing. -/
def Obligations.FromHexOfEmptyAndZeroText : Prop :=
  (∀ s : State, exec (.fromHex 0 []) s = .next (valueDone s 0#256)) ∧
  (∀ (front : List Byte) (k : Nat) (s : State), (∀ c ∈ front, isHexDigit c = true) → (front = [] ∨ 64 ≤ k) →
    front.length + k ≤ Config.hexInMax →
    exec (.fromHex (front.length + k) (front ++ List.replicate k 0x30#8)) s = .next (valueDone s 0#256)) ∧
  ∀ (k : Nat) (t : List Byte) (s : State), k + t.length ≤ Config.hexInMax →
    exec (.fromHex (k + t.length) (List.replicate k 0x30#8 ++ t)) s = exec (.fromHex t.length t) s

/-- R73, R76: the word-grouping and the digit-serial datapaths give the value of the sum of digits, for every
text of digits. -/
def Obligations.ParserDatapathsAgree : Prop :=
  ∀ t : List Byte, (∀ c ∈ t, isHexDigit c = true) → parseGroups t = parseHex t ∧ parseSerial t = parseHex t

/-! ## Hex formatter -/

/-- R79, R81, R84: to_hex completes with "0" for ZERO, and for every other value with as many characters as its
number has hex digits, character p the one of nibble D-1-p. -/
def Obligations.ToHexWritesTheMinimalNumeral : Prop :=
  ∀ (a : U256) (s : State), ∃ txt len t, exec (.toHex a) s = .next (textDone s txt len) ∧ holdsText txt len t ∧
    (a = 0#256 → t = [0x30#8]) ∧
    (a ≠ 0#256 → t.length = Nat.log 16 a.toNat + 1 ∧
      ∀ p (h : p < t.length), t[p] = hexchar ((a.extractLsb' (4 * (t.length - 1 - p)) 4).toNat))

/-- R78: the sixteen characters the formatter writes. -/
def Obligations.HexCharacterTable : Prop :=
  (∀ d, d < 10 → (hexchar d).toNat = 0x30 + d) ∧ hexchar 10 = 0x61#8 ∧ hexchar 11 = 0x62#8 ∧
    hexchar 12 = 0x63#8 ∧ hexchar 13 = 0x64#8 ∧ hexchar 14 = 0x65#8 ∧ hexchar 15 = 0x66#8

/-- R80, R83: the word-level rule. With `top` the highest non-zero word, to_hex writes the top word's characters
from its first non-zero digit on, then 8 characters for every lower word, zero words among them. The 8
characters of a word are those of its nibbles, the most significant first. -/
def Obligations.ToHexPrintsLowerWordsInFull : Prop :=
  (∀ w : Word, (hex8 w).length = 8 ∧
    ∀ p, p < 8 → (hex8 w).getD p 0#8 = hexchar (w.extractLsb' (4 * (7 - p)) 4).toNat) ∧
  ∀ (a : U256) (s : State) (top : Nat), top < 8 → word a top ≠ 0#32 → (∀ i, top < i → i < 8 → word a i = 0#32) →
    ∃ txt len t low, exec (.toHex a) s = .next (textDone s txt len) ∧ holdsText txt len (t ++ low) ∧
      (∃ zeros, hex8 (word a top) = zeros ++ t ∧ ∀ c ∈ zeros, c = 0x30#8) ∧ t.head? ≠ some 0x30#8 ∧ t ≠ [] ∧
      low.length = 8 * top ∧
      ∀ i, i < top → (low.drop (8 * (top - 1 - i))).take 8 = hex8 (word a i)

/-- R82: the length is 1 to 64 and no byte of the text is 0x00; for a non-zero value it is 8 * top + the digit count
of the top word, 1 for 1 to 15, and 64 exactly where word 7 is at least 0x10000000. -/
def Obligations.ToHexLength : Prop :=
  ∀ (a : U256) (s : State), ∃ txt len, exec (.toHex a) s = .next (textDone s txt len) ∧
    1 ≤ len.toNat ∧ len.toNat ≤ 64 ∧ (∀ p, p < len.toNat → txt.extractLsb' (8 * p) 8 ≠ 0x00#8) ∧
    (len.toNat = 64 ↔ 0x10000000 ≤ (word a 7).toNat) ∧
    (a ≠ 0#256 → (len.toNat = 1 ↔ a.toNat ≤ 15) ∧
      ∃ top, top < 8 ∧ word a top ≠ 0#32 ∧ (∀ i, top < i → i < 8 → word a i = 0#32) ∧
        len.toNat = 8 * top + (Nat.log 16 (word a top).toNat + 1))

/-- R79: ZERO gives the one character '0', and is the only value whose text begins with it. -/
def Obligations.OnlyZeroBeginsWithTheDigitZero : Prop :=
  ∀ (a : U256) (s t : State), exec (.toHex a) s = .next t →
    (t.rspTxt.extractLsb' 0 8 = 0x30#8 ↔ a = 0#256) ∧ (a = 0#256 → t.rspTxtLen = 1#7 ∧ t.rspErr = 0#2)

/-- R86: to_hex and then from_hex of the text it wrote give the value back, in every state and for every value. -/
def Obligations.ParseOfFormatIsTheValue : Prop :=
  ∀ (v : U256) (s : State), ∃ t u, exec (.toHex v) s = .next t ∧ (Instr.ofText t.text).wf = true ∧
    exec (Instr.ofText t.text) t = .next u ∧ u.rspR = v ∧ u.rspErr = 0#2

/-! ## Word accessor -/

/-- R57, R87, R88: an index of 0 to 7, which is `S[31:3] = 0`, gives the word `S[2:0]` of A; every other index gives
IndexOutOfRange (code 2) and leaves RSP_W. -/
def Obligations.GetWordChecksItsIndex : Prop :=
  ∀ (a : U256) (index : Word) (s : State),
    (index.toNat ≤ 7 ↔ index.extractLsb' 3 29 = 0#29) ∧
    (index.toNat ≤ 7 → exec (.getWord a index) s =
      .next (wordDone s (a.extractLsb' (32 * (index.extractLsb' 0 3).toNat) 32))) ∧
    (7 < index.toNat → exec (.getWord a index) s = .next (errorDone s 2#2))

/-! ## Arithmetic -/

/-- R89: the carry chain adds, modulo 2^256, for either carry in. -/
def Obligations.CarryChainAddsModulo : Prop :=
  ∀ (x y : U256) (c0 : Nat), c0 ≤ 1 → (addc x y c0).toNat = (x.toNat + y.toNat + c0) % 2 ^ 256

/-- R90: the carry out of a word is bit 32 of the exact three-term sum, 0 or 1; with both words 0xFFFFFFFF and a
carry in it is 1, though the sum word is no smaller than either operand. -/
def Obligations.CarryIsBit32OfTheExactSum : Prop :=
  (∀ (x y : Word) (c : Nat), c ≤ 1 → carryOut x y c ≤ 1 ∧
    (carryOut x y c = 1 ↔ (x.toNat + y.toNat + c).testBit 32 = true)) ∧
  carryOut 0xFFFFFFFF#32 0xFFFFFFFF#32 1 = 1 ∧ sumWord 0xFFFFFFFF#32 0xFFFFFFFF#32 1 = 0xFFFFFFFF#32

/-- R91: add completes with the sum modulo 2^256. -/
def Obligations.AddIsTheSumModulo : Prop :=
  ∀ (a b : U256) (s : State), ∃ r, exec (.add a b) s = .next (valueDone s r) ∧
    r.toNat = (a.toNat + b.toNat) % 2 ^ 256

/-- R92: ZERO is the identity on both sides, MAX + ONE is ZERO, add is commutative and associative, and a value and
its negation sum to ZERO. -/
def Obligations.AddLaws : Prop :=
  ∀ (u v w : U256) (s : State),
    exec (.add v U256.zero) s = .next (valueDone s v) ∧ exec (.add U256.zero v) s = .next (valueDone s v) ∧
    exec (.add U256.max U256.one) s = .next (valueDone s U256.zero) ∧
    exec (.add u v) s = exec (.add v u) s ∧
    exec (.add (addc u v 0) w) s = exec (.add u (addc v w 0)) s ∧
    exec (.add v (neg v)) s = .next (valueDone s U256.zero)

/-- R93, R94: negate completes with -A modulo 2^256, and the negation unit is the adder on the complement with a
carry in of 1. -/
def Obligations.NegateIsTheTwosComplement : Prop :=
  ∀ (a : U256) (s : State), (∃ r, exec (.negate a) s = .next (valueDone s r) ∧
    r.toNat = (2 ^ 256 - a.toNat) % 2 ^ 256) ∧ neg a = addc (complementWords a) U256.zero 1

/-- R95: the negation of ZERO is ZERO, and negating twice gives the value back. -/
def Obligations.NegateLaws : Prop :=
  ∀ (a : U256) (s : State), exec (.negate U256.zero) s = .next (valueDone s U256.zero) ∧
    ∃ t, exec (.negate a) s = .next t ∧ exec (.negate t.rspR) t = .next (valueDone t a)

/-- R96, R98: sub completes with A - B modulo 2^256, A the minuend; it is add of A and the negation of B. -/
def Obligations.SubIsTheDifferenceModulo : Prop :=
  ∀ (a b : U256) (s : State), ∃ r, exec (.sub a b) s = .next (valueDone s r) ∧
    (r.toNat : Int) = ((a.toNat : Int) - (b.toNat : Int)) % 2 ^ 256 ∧
    exec (.sub a b) s = exec (.add a (neg b)) s

/-- R97: the borrow chain, the adder with the complement and a carry in, and the sum with the negation agree. -/
def Obligations.SubtractorDatapathsAgree : Prop :=
  ∀ x y : U256, subb x y = addc x (neg y) 0 ∧ addc x (complementWords y) 1 = addc x (neg y) 0

/-- R99: a value less itself is ZERO, ZERO less ONE is MAX, 3 less 2 is 1. -/
def Obligations.SubLaws : Prop :=
  ∀ (a : U256) (s : State), exec (.sub a a) s = .next (valueDone s U256.zero) ∧
    exec (.sub U256.zero U256.one) s = .next (valueDone s U256.max) ∧
    exec (.sub 3#256 2#256) s = .next (valueDone s 1#256)

/-! ## Rotation -/

/-- R56: the amount is the low 8 bits of S, the word count its bits 7..5 and the bit count its bits 4..0; its other
bits change no response of either rotate. -/
def Obligations.RotationAmountIsTheLowByte : Prop :=
  ∀ (n n' : Word) (a : U256) (s : State),
    rotAmount n = n.toNat % 256 ∧ rotAmount n = (n.extractLsb' 0 8).toNat ∧ rotWords (rotAmount n) = (n.extractLsb' 5 3).toNat ∧
    rotBits (rotAmount n) = (n.extractLsb' 0 5).toNat ∧
    (n.extractLsb' 0 8 = n'.extractLsb' 0 8 →
      exec (.rotateLeft a n) s = exec (.rotateLeft a n') s ∧
      exec (.rotateRight a n) s = exec (.rotateRight a n') s)

/-- R102, R104: rotate_left completes with bit j of A at place (j + k) mod 256, k = S mod 256; and its number. -/
def Obligations.RotateLeftMovesEveryBit : Prop :=
  ∀ (a : U256) (n : Word) (s : State), ∃ r, exec (.rotateLeft a n) s = .next (valueDone s r) ∧
    (∀ j, j < 256 → r.getLsbD ((j + n.toNat % 256) % 256) = a.getLsbD j) ∧
    r.toNat = (a.toNat * 2 ^ (n.toNat % 256) + a.toNat / 2 ^ (256 - n.toNat % 256)) % 2 ^ 256

/-- R105, R107: rotate_right completes with bit (j + k) mod 256 of A at place j, k = S mod 256. -/
def Obligations.RotateRightMovesEveryBit : Prop :=
  ∀ (a : U256) (n : Word) (s : State), ∃ r, exec (.rotateRight a n) s = .next (valueDone s r) ∧
    (∀ j, j < 256 → r.getLsbD j = a.getLsbD ((j + n.toNat % 256) % 256)) ∧
    r = rol a ((256 - n.toNat % 256) % 256)

/-- R108: an amount that is a multiple of 32 permutes whole words. -/
def Obligations.MultiplesOf32PermuteWords : Prop :=
  ∀ (a : U256) (n : Word) (s : State), n.toNat % 32 = 0 →
    (∃ r, exec (.rotateLeft a n) s = .next (valueDone s r) ∧
      ∀ i, i < 8 → word r i = word a ((i + 8 - n.toNat % 256 / 32) % 8)) ∧
    ∃ r, exec (.rotateRight a n) s = .next (valueDone s r) ∧
      ∀ i, i < 8 → word r i = word a ((i + n.toNat % 256 / 32) % 8)

/-- R109: left by n is right by 256 - n, amounts count modulo 256, right undoes left, and the number of 1 bits stays. -/
def Obligations.RotationLaws : Prop :=
  ∀ (v : U256) (n : Word) (s : State),
    exec (.rotateLeft v n) s = exec (.rotateRight v (BitVec.ofNat 32 ((256 - n.toNat % 256) % 256))) s ∧
    exec (.rotateLeft v 256#32) s = .next (valueDone s v) ∧ exec (.rotateLeft v 0#32) s = .next (valueDone s v) ∧
    exec (.rotateLeft v n) s = exec (.rotateLeft v (BitVec.ofNat 32 (n.toNat % 256))) s ∧
    (∃ t, exec (.rotateLeft v n) s = .next t ∧ exec (.rotateRight t.rspR n) t = .next (valueDone t v)) ∧
    ∀ r, (exec (.rotateLeft v n) s = .next (valueDone s r) ∨ exec (.rotateRight v n) s = .next (valueDone s r)) →
      ((Finset.range 256).filter fun j => r.getLsbD j = true).card =
        ((Finset.range 256).filter fun j => v.getLsbD j = true).card

/-! ## Errors and frames over all instructions -/

/-- R59: each reserved OP, 0xA to 0xF, whatever the other ports carry, is a command that completes with
IllegalCommand (code 3), and RSP_ERR alone is written. -/
def Obligations.ReservedOpsCompleteWithIllegalCommand : Prop :=
  (∀ (c : Command) (s : State), 0xA ≤ c.op.toNat → exec (decode c) s = .next (errorDone s 3#2)) ∧
  ∀ (s : State) (i : Instr),
    i ∈ [Instr.reservedA, .reservedB, .reservedC, .reservedD, .reservedE, .reservedF] →
    exec i s = .next (errorDone s 3#2)

/-- R112, R115: which instruction gives which code, and for which operands; IllegalCommand writes RSP_ERR alone. -/
def Obligations.ErrorCodesHaveExactlyTheirCauses : Prop :=
  ∀ (i : Instr) (s t : State), exec i s = .next t →
    (t.rspErr = 1#2 ↔ ∃ tlen txt, i = .fromHex tlen txt ∧ tlen ≤ Config.hexInMax ∧
      ∃ c ∈ txt, isHexDigit c = false) ∧
    (t.rspErr = 2#2 ↔ ∃ a index, i = .getWord a index ∧ 7 < index.toNat) ∧
    (t.rspErr = 3#2 ↔ 0xA ≤ (opcode i).toNat ∨ ∃ tlen txt, i = .fromHex tlen txt ∧ Config.hexInMax < tlen) ∧
    (t.rspErr = 3#2 → t = errorDone s 3#2)

/-- R116: every instruction completes, in every state: BUSY 0, nothing pending, rsp_valid and cmd_ready 1, RSP_ERR
written; none hangs, faults or is refused. -/
def Obligations.EveryInstructionCompletes : Prop :=
  ∀ (i : Instr) (s : State), ∃ t, exec i s = .next t ∧ t.busy = false ∧ t.pending = none ∧
    t.written.err = true ∧ (t.outputs false).rspValid = true ∧ (t.outputs false).cmdReady = true

/-- R32, R54, R118: on an error RSP_ERR alone is written; on success RSP_ERR is 0 and the result register of the
instruction's form alone is written; everything else is as it was. -/
def Obligations.CompletionWritesOnlyItsRegisters : Prop :=
  ∀ (i : Instr) (s t : State), exec i s = .next t →
    (t.rspErr ≠ 0#2 → t = errorDone s t.rspErr) ∧
    (t.rspErr = 0#2 → i.form ≠ .reserved ∧
      (i.form = .fmtASW → t = wordDone s t.rspW) ∧
      (i.form = .fmtATxt → t = textDone s t.rspTxt t.rspTxtLen) ∧
      (i.form ≠ .fmtASW → i.form ≠ .fmtATxt → t = valueDone s t.rspR))

/-- R34, R119: the response depends on the instruction and its operands alone, on no state an earlier command or
error left. -/
def Obligations.ResponseDependsOnOperandsAlone : Prop :=
  ∀ (i : Instr) (s s' t t' : State), exec i s = .next t → exec i s' = .next t' →
    t.rspErr = t'.rspErr ∧ t.last = t'.last ∧
    (t.last = .wroteR → t.rspR = t'.rspR) ∧ (t.last = .wroteW → t.rspW = t'.rspW) ∧
    (t.last = .wroteTxt → t.rspTxt = t'.rspTxt ∧ t.rspTxtLen = t'.rspTxtLen)

/-! ## Reset, handshake and steps -/

/-- R35: the state after reset. -/
def Obligations.ResetStateIsIdleAndUnwritten : Prop :=
  State.reset.busy = false ∧ State.reset.pending = none ∧ (State.reset.outputs false).cmdReady = true ∧
    (State.reset.outputs false).rspValid = false ∧ (∀ r, State.reset.isWritten r = false) ∧
    State.reset.specRecord = { busy := false, pending := none, rspR := none, rspW := none, rspTxt := none,
                               rspErr := none, rspValid := false }

/-- R124, R125: an edge with rst = 1 clears BUSY, drops a command in progress, makes every response register
unwritten and accepts no command, whatever the other pins carry; while rst = 1 cmd_ready and rsp_valid are 0, and
with rst = 0 after it cmd_ready is 1. That both ports are 0 already in the cycle before the edge that samples rst is the
model's choice (log entry 16), and so is that such an edge is no fault whatever the host had to hold (log entry 12). -/
def Obligations.ResetEdgeAbandonsAndUnwrites : Prop :=
  ∀ (s : State) (p : Pins) (rest : List HostEvent), s.host = .edge p :: rest → p.rst = true →
    (s.outputs true).cmdReady = false ∧ (s.outputs true).rspValid = false ∧
    ∃ t, step s = .next t ∧ t.busy = false ∧ t.pending = none ∧ t.rspValid = false ∧
      (∀ r, t.isWritten r = false) ∧ (t.outputs false).cmdReady = true

/-- R29: cmd_ready is 1 exactly while BUSY is 0; a command is accepted at an edge with rst = 0, cmd_valid = 1 and
BUSY = 0, where its ports are sampled and BUSY is set; an edge with no command presented leaves BUSY 0; while BUSY
is 1 cmd_valid and every other port are ignored. No response register changes at these edges. -/
def Obligations.CommandsAreAcceptedOnlyWhenReady : Prop :=
  ∀ (s : State) (p : Pins), p.rst = false → ((s.outputs false).cmdReady = true ↔ s.busy = false) ∧
    (s.busy = false → p.cmdValid = true → clockEdge p s = .next { s with
      busy := true, rspValid := false
      pending := some { cmd := p.cmd, remaining := Config.lat p.cmd.op p.cmd.txtLen.toNat } }) ∧
    (s.busy = false → p.cmdValid = false → clockEdge p s = .next { s with rspValid := false }) ∧
    (s.busy = true → ∀ p' : Pins, p'.rst = false → clockEdge p' s = clockEdge p s)

/-- A step whose edge is the completing edge of a command is `exec` of the instruction the sampled ports decode to,
in the state with that host action taken, where the host holds what it has to (R129); so is the step the host's
checks place a table word before (log entry 8). What the host presents at the edge it has to hold after it. -/
def Obligations.StepRunsTheDecodedInstruction : Prop :=
  (∀ (s : State) (p : Pins) (rest : List HostEvent) (q : Pending), s.host = .edge p :: rest → p.rst = false →
    s.busy = true → s.pending = some q → q.remaining ≤ 1 → holds s.offered p →
    step s = exec (decode q.cmd) { s with host := rest, offered := presented p }) ∧
  (∀ (s : State) (q : Pending), s.host = [] → s.busy = true → s.pending = some q → q.remaining ≤ 1 →
    s.offered = none → step s = exec (decode q.cmd) s) ∧
  ∀ (s : State) (nbits w : Nat) (i : Instr), decodeTableWord nbits w = some i →
    step (s.withFetchWord nbits w) = exec i { s with
      busy := true, pending := some { cmd := Command.ofTableWord w, remaining := 1 }, offered := none }

/-- R30, R135: from an idle core, a command presented at an edge and followed by edges without reset completes at
edge LAT(op) after its acceptance, with exactly the effect of `exec`; at every edge before that the response
registers are as they were, BUSY is 1 and rsp_valid 0. The pins at those edges change nothing of the core; they only
have to keep the host's obligation to hold what it presents (R129). -/
def Obligations.AcceptedCommandCompletesAfterItsLatency : Prop :=
  ∀ (s : State) (p : Pins) (ps : List Pins) (rest : List HostEvent),
    s.busy = false → p.rst = false → p.cmdValid = true → (∀ q ∈ ps, q.rst = false) →
    holds s.offered p → holdsThrough none ps →
    s.host = .edge p :: (ps.map HostEvent.edge ++ rest) →
    (ps.length < Config.lat p.cmd.op p.cmd.txtLen.toNat → Sys2Proof.core.run (ps.length + 1) s = .next { s with
      busy := true, rspValid := false, host := rest, offered := offerAfter none ps
      pending := some { cmd := p.cmd, remaining := Config.lat p.cmd.op p.cmd.txtLen.toNat - ps.length } }) ∧
    (ps.length = Config.lat p.cmd.op p.cmd.txtLen.toNat →
      Sys2Proof.core.run (ps.length + 1) s = exec (decode p.cmd) { s with
        busy := true, rspValid := false, host := rest, offered := offerAfter none ps
        pending := some { cmd := p.cmd, remaining := 1 } })

/-- R31: the response registers change at a completing edge alone, where all of a command's writes land together and
rsp_valid rises, and become unwritten at a reset edge. At every other step they are as they were, and after every
edge that is not a completing one rsp_valid is 0. -/
def Obligations.ResponsesChangeOnlyAtCompletionOrReset : Prop :=
  (∀ s t : State, step s = .next t →
    sameResponse s t ∨
    (∃ q, s.busy = true ∧ s.pending = some q ∧ q.remaining ≤ 1 ∧ t.busy = false ∧ t.rspValid = true ∧
      exec (decode q.cmd) { s with host := t.host, offered := t.offered } = .next t) ∨
    (∃ p rest, s.host = .edge p :: rest ∧ p.rst = true ∧ ∀ r, t.isWritten r = false)) ∧
  ∀ (s t : State) (p : Pins), clockEdge p s = .next t → t.rspValid = true →
    p.rst = false ∧ s.busy = true ∧ ∃ q, s.pending = some q ∧ q.remaining ≤ 1

/-- R129: an instruction the host issues is taken at the next edge where the core is idle, and is then the command in
progress. While a command is in progress, its completing edge included, the issue stays the host's next action
and its command the one to hold; at the completing edge BUSY falls, so the next edge takes it. The issue as one action
of a list is the model's host (log entries 4 and 6), and the record of what it has to hold is the model's (log entry 12). -/
def Obligations.IssueHoldsTheCommandUntilAccepted : Prop :=
  ∀ (s : State) (i : Instr) (rest : List HostEvent), s.host = .issue i :: rest → i.wf = true →
    (s.offered = none ∨ s.offered = some (encode i)) →
    (s.busy = false → ∃ t q, step s = .next t ∧ t.host = rest ∧ t.offered = none ∧ t.busy = true ∧
      t.pending = some q ∧ decode q.cmd = i ∧ sameResponse s t) ∧
    ∀ q, s.busy = true → s.pending = some q →
      ∃ t, step s = .next t ∧ t.host = s.host ∧ t.offered = some (encode i) ∧
        (1 < q.remaining → t.busy = true ∧ sameResponse s t) ∧
        (q.remaining ≤ 1 → t.busy = false ∧ exec (decode q.cmd) { s with offered := some (encode i) } = .next t)

/-! ## The host's reads, faults and refusals -/

/-- R44: a read by the host changes no register of the core; it only hands the host the register's content, and a read
of RSP_ERR, and only that, counts as the check of R131 (log entry 5). -/
def Obligations.HostReadsChangeNothingOfTheCore : Prop :=
  ∀ (s t : State) (r : RspReg) (rest : List HostEvent),
    s.host = .readResult r :: rest ∨ s.host = .readStanding r :: rest → step s = .next t →
    t = { s with host := rest, hostValue := some (s.content r), errChecked := t.errChecked } ∧
      (t.errChecked = true ↔ s.errChecked = true ∨ r = .rspErr)

/-- R123, R130 to R132: exactly when a read of the last command's result goes on, and that each way it cannot is a
host fault. That an unread RSP_ERR is one is the model's choice (log entry 5). -/
def Obligations.ResultReadsGoOnExactlyWhenAllowed : Prop :=
  ∀ (s : State) (r : RspReg) (rest : List HostEvent), s.host = .readResult r :: rest →
    (s.Safe ↔ s.busy = false ∧ s.isWritten r = true ∧ s.last.wrote r = true ∧
      (r ≠ .rspErr → s.errChecked = true)) ∧
    (s.Safe ∨ ∃ f, step s = .fault f)

/-- R130, R131: exactly when a read of what an earlier command left goes on: the register is written, and, but for
RSP_ERR itself, RSP_ERR has been read since the last completion; otherwise it is a host fault. A read of a written
RSP_ERR goes on and counts as that check. That there is such a read beside the one of the last result is the model's
choice (log entry 11), and so is that an unread RSP_ERR is a fault (log entry 5). -/
def Obligations.StandingReadsGoOnExactlyWhenAllowed : Prop :=
  ∀ (s : State) (r : RspReg) (rest : List HostEvent), s.host = .readStanding r :: rest →
    (s.Safe ↔ s.isWritten r = true ∧ (r ≠ .rspErr → s.errChecked = true)) ∧
    (s.Safe ∨ ∃ f, step s = .fault f) ∧
    (r = .rspErr → s.isWritten .rspErr = true → ∃ t, step s = .next t ∧ t.errChecked = true ∧
      t.hostValue = some (.ofErr s.rspErr))

/-- R33: a register unwritten since reset has no value: both reads of it are host faults, in any state. -/
def Obligations.UnwrittenRegistersCannotBeRead : Prop :=
  ∀ (s : State) (r : RspReg) (rest : List HostEvent), s.isWritten r = false →
    (s.host = .readResult r :: rest → ∃ f, step s = .fault f) ∧
    (s.host = .readStanding r :: rest → step s = .fault (.readUnwritten r))

/-- R130: after a command has completed without an error, reading RSP_ERR and then a register it wrote delivers that
register's content. -/
def Obligations.ResultIsReadableAfterCompletion : Prop :=
  ∀ (i : Instr) (s t : State) (r : RspReg) (rest : List HostEvent),
    s.host = .readResult .rspErr :: .readResult r :: rest → exec i s = .next t → t.rspErr = 0#2 →
    t.last.wrote r = true →
    ∃ u, Sys2Proof.core.run 2 t = .next u ∧ u.hostValue = some (t.content r) ∧ u.host = rest

/-- R123, R129: the only step that is refused is the issue of a term the ports cannot carry, and the only steps that
fault are reads by the host and edges at which the host no longer presents, unchanged, a command it has to hold.
The last are exactly these: with a command on offer, an edge of no action or of a wait, an edge without reset that
presents another command or none, and the issue of another instruction. That a broken hold is a fault is read
from R129 and D28 (log entry 12). -/
def Obligations.OnlyTheHostCanStopTheMachine : Prop :=
  ∀ s : State,
    (∀ r, step s = .refused r ↔
      r = .notPresentable ∧ ∃ i rest, s.host = .issue i :: rest ∧ i.wf = false) ∧
    (∀ f, step s = .fault f → f = .commandNotHeld ∨
      ∃ r rest, s.host = .readResult r :: rest ∨ s.host = .readStanding r :: rest) ∧
    (step s = .fault .commandNotHeld ↔ ∃ c, s.offered = some c ∧
      (s.host = [] ∨ (s.busy = true ∧ ∃ rest, s.host = .await :: rest) ∨
        (∃ p rest, s.host = .edge p :: rest ∧ p.rst = false ∧ presented p ≠ some c) ∨
        ∃ i rest, s.host = .issue i :: rest ∧ i.wf = true ∧ encode i ≠ c))

/-- R61: every line whose operands resolve to a command the ports can carry runs that command, with the whole effect
of `exec`; without a name it binds nothing, and with one it binds the name to the result of its form, or to the
kind of error. A line with an operand that denotes nothing, or a text the length port cannot hold, has no run. Below
it, what some lines bind and leave, in full. Listings as abstract syntax whose lines run as atomic steps are the
model's choice (log entry 9), and so is that `S=` and `T=` take no bound name (log entry 20). -/
def Obligations.ListingLinesBindResultsAndErrors : Prop :=
  ∀ (names : Names) (s : State),
    (∀ (op : LineOp) (i : Instr), op.resolve names = some i → i.wf = true →
      ∃ t, exec i s = .next t ∧ Line.run { op := op, result := none } names s = some (names, t) ∧
        ∀ x, ∃ v, Line.run { op := op, result := some x } names s = some ((x, v) :: names, t) ∧
          (t.rspErr = 0#2 → i.form = .fmtASW → v = .word t.rspW) ∧
          (t.rspErr = 0#2 → i.form = .fmtATxt → v = .text
            ((List.range t.rspTxtLen.toNat).map fun p => t.rspTxt.extractLsb' (8 * p) 8)) ∧
          (t.rspErr = 0#2 → i.form ≠ .fmtASW → i.form ≠ .fmtATxt → v = .value t.rspR) ∧
          (t.rspErr = 1#2 → v = .error .invalidDigit) ∧ (t.rspErr = 2#2 → v = .error .indexOutOfRange) ∧
          (t.rspErr = 3#2 → v = .error .illegalCommand)) ∧
    (∀ l : Line, (l.op.resolve names = none ∨ ∃ i, l.op.resolve names = some i ∧ i.wf = false) →
      l.run names s = none) ∧
    (∀ (x : String) (t : List Byte), t.length ≤ Config.hexInMax → (∃ c ∈ t, isHexDigit c = false) →
      Line.run { op := .fromHex t, result := some x } names s =
        some ((x, .error .invalidDigit) :: names, errorDone s 1#2)) ∧
    (∀ (x : String) (t : List Byte), Config.hexInMax < t.length → t.length < 2 ^ Config.tlenBits →
      Line.run { op := .fromHex t, result := some x } names s =
        some ((x, .error .illegalCommand) :: names, errorDone s 3#2)) ∧
    ∀ (x : String) (op : ValueOperand) (a : U256) (n : Word), op.resolve names = some a →
      (n.toNat ≤ 7 → Line.run { op := .getWord op n.toNat, result := some x } names s =
        some ((x, .word (word a n.toNat)) :: names, wordDone s (word a n.toNat))) ∧
      (7 < n.toNat → Line.run { op := .getWord op n.toNat, result := some x } names s =
        some ((x, .error .indexOutOfRange) :: names, errorDone s 2#2)) ∧
      Line.run { op := .rotateLeft op n.toNat, result := some x } names s =
        some ((x, .value (rol a (n.toNat % 256))) :: names, valueDone s (rol a (n.toNat % 256))) ∧
      ∃ txt len, holdsText txt len (formatHex a) ∧
        Line.run { op := .toHex op, result := some x } names s =
          some ((x, .text (formatHex a)) :: names, textDone s txt len)

/-! ## The invariant -/

/-- The invariant holds after reset. -/
def Obligations.ResetMeetsTheInvariant : Prop := State.reset.Inv

/-- Every step keeps the invariant, from every state that meets it, whatever the host does. -/
def Obligations.EveryStepKeepsTheInvariant : Prop :=
  ∀ s t : State, s.Inv → step s = .next t → t.Inv

/-! ## Pseudo-instructions -/

/-- R64: each pseudo-instruction expands to the commands its table shows, t being a host-side name, and running the
expansion, in any state and with any names, binds the result of the table. Listings as abstract syntax are the
model's (log entries 9 and 20), and so is the amount n as a natural number of any size (log entry 19). -/
def Obligations.PseudoInstructionsGiveTheirResults : Prop :=
  (∀ (x : Option String) (a : ValueOperand) (n : Nat),
    Pseudo.expand .zero x = [{ op := .fromU32 0, result := x }] ∧
    Pseudo.expand .one x = [{ op := .fromU32 1, result := x }] ∧
    Pseudo.expand .maxValue x = [{ op := .fromWords (.wordList [0xFFFFFFFF#32, 0xFFFFFFFF#32, 0xFFFFFFFF#32,
      0xFFFFFFFF#32, 0xFFFFFFFF#32, 0xFFFFFFFF#32, 0xFFFFFFFF#32, 0xFFFFFFFF#32]), result := x }] ∧
    Pseudo.expand (.copy a) x = [{ op := .fromWords a, result := x }] ∧
    Pseudo.expand (.inc a) x = [{ op := .add a (.number 1), result := x }] ∧
    Pseudo.expand (.dec a) x = [{ op := .sub a (.number 1), result := x }] ∧
    (∃ t, Pseudo.expand (.not a) x =
      [{ op := .negate a, result := some t }, { op := .sub (.name t) (.number 1), result := x }]) ∧
    Pseudo.expand (.rotrByRotl a n) x = [{ op := .rotateLeft a ((256 - n % 256) % 256), result := x }]) ∧
  ∀ (names : Names) (s : State),
    binds .zero names s 0#256 ∧ binds .one names s 1#256 ∧ binds .maxValue names s (BitVec.allOnes 256) ∧
    ∀ (op : ValueOperand) (a : U256), op.resolve names = some a →
      binds (.copy op) names s a ∧
      binds (.inc op) names s (BitVec.ofNat 256 (a.toNat + 1)) ∧
      binds (.dec op) names s (BitVec.ofInt 256 ((a.toNat : Int) - 1)) ∧
      (∃ v, (∀ i, i < 8 → word v i = ~~~(word a i)) ∧ binds (.not op) names s v) ∧
      ∀ n : Nat, binds (.rotrByRotl op n) names s (ror a (n % 256))
end

