-- ==== Sys2Proof/Laws/Words.lean ====
section
/-! SUPPORT. A value and its words: the number of a value is the weighted sum of its words (R13), building a value
from words and reading a word are inverse, and the number a carry chain gives (R89). -/

namespace Sys2Proof.Machine

@[simp] theorem wordsVal_nil : wordsVal [] = 0 := rfl

@[simp] theorem wordsVal_cons (w : Word) (ws : List Word) :
    wordsVal (w :: ws) = w.toNat + 2 ^ 32 * wordsVal ws := rfl

/-- The weight of one word more. -/
theorem two_pow_word_succ (n : Nat) : 2 ^ (32 * (n + 1)) = 2 ^ (32 * n) * 2 ^ 32 := by
  rw [Nat.mul_succ, Nat.pow_add]

theorem wordsVal_lt (ws : List Word) : wordsVal ws < 2 ^ (32 * ws.length) := by
  induction ws with
  | nil => simp
  | cons w ws ih =>
    have hw := w.isLt
    have hp : 2 ^ (32 * (ws.length + 1)) = 2 ^ 32 * 2 ^ (32 * ws.length) := by
      rw [two_pow_word_succ, Nat.mul_comm]
    simp only [wordsVal_cons, List.length_cons, hp]
    have : 2 ^ 32 * (wordsVal ws + 1) ≤ 2 ^ 32 * 2 ^ (32 * ws.length) := Nat.mul_le_mul_left _ ih
    omega

/-- The number whose words are those of v from word i up is v shifted down by i words. -/
theorem wordsVal_map_word (v : U256) (i n : Nat) :
    wordsVal ((List.range' i n).map (word v)) = v.toNat / 2 ^ (32 * i) % 2 ^ (32 * n) := by
  induction n generalizing i with
  | zero => simp [Nat.mod_one]
  | succ n ih =>
    simp only [List.range'_succ, List.map_cons, wordsVal_cons, ih, word, BitVec.extractLsb'_toNat,
      Nat.shiftRight_eq_div_pow]
    have h1 : 2 ^ (32 * (i + 1)) = 2 ^ (32 * i) * 2 ^ 32 := two_pow_word_succ i
    have h2 : 2 ^ (32 * (n + 1)) = 2 ^ 32 * 2 ^ (32 * n) := by rw [two_pow_word_succ, Nat.mul_comm]
    rw [h1, h2, ← Nat.div_div_eq_div_mul, Nat.mod_mul]

@[simp] theorem length_words (v : U256) : (words v).length = 8 := by simp [words]

@[simp] theorem wordsVal_words (v : U256) : wordsVal (words v) = v.toNat := by
  have h := wordsVal_map_word v 0 8
  rw [← List.range_eq_range'] at h
  have hv := v.isLt
  simp only [words, h]
  simp
  omega

@[simp] theorem ofWords_words (v : U256) : ofWords (words v) = v := by
  simp [ofWords]

/-- Word i of the value built from a list is the list's i-th word. -/
theorem wordsVal_div_mod (ws : List Word) (i : Nat) (h : i < ws.length) :
    wordsVal ws / 2 ^ (32 * i) % 2 ^ 32 = (ws[i]).toNat := by
  induction ws generalizing i with
  | nil => simp at h
  | cons w ws ih =>
    have hw := w.isLt
    cases i with
    | zero => simp [Nat.add_mul_mod_self_left, Nat.mod_eq_of_lt hw]
    | succ i =>
      have h1 : 2 ^ (32 * (i + 1)) = 2 ^ 32 * 2 ^ (32 * i) := by
        rw [two_pow_word_succ, Nat.mul_comm]
      have h2 : (w.toNat + 2 ^ 32 * wordsVal ws) / 2 ^ 32 = wordsVal ws := by omega
      simp only [wordsVal_cons, h1, ← Nat.div_div_eq_div_mul, h2, List.getElem_cons_succ]
      exact ih i (by simpa using h)

theorem word_ofWords (ws : List Word) (hl : ws.length = 8) (i : Nat) (h : i < ws.length) :
    word (ofWords ws) i = ws[i] := by
  apply BitVec.eq_of_toNat_eq
  have hlt := wordsVal_lt ws
  rw [hl] at hlt
  rw [← wordsVal_div_mod ws i h]
  simp only [word, ofWords, BitVec.extractLsb'_toNat, BitVec.toNat_ofNat, Nat.shiftRight_eq_div_pow]
  rw [Nat.mod_eq_of_lt (a := wordsVal ws) (b := 2 ^ 256) hlt]

theorem word_buildWords (f : Nat → Word) (i : Nat) (h : i < 8) : word (buildWords f) i = f i := by
  rw [buildWords, word_ofWords _ (by simp) i (by simpa using h)]
  simp

/-- Two values with the same 8 words are the same value (R20). -/
theorem eq_of_word_eq (v w : U256) (h : ∀ i, i < 8 → word v i = word w i) : v = w := by
  rw [← ofWords_words v, ← ofWords_words w]
  congr 1
  exact List.map_congr_left fun i hi => h i (by simpa using hi)

@[simp] theorem buildWords_word (v : U256) : buildWords (word v) = v :=
  eq_of_word_eq _ _ fun i h => word_buildWords _ i h

/-- The weight a carry chain passes out of its last word. -/
def chainCarry : List (Word × Word) → Nat → Nat
  | [], c => c
  | (x, y) :: rest, c => chainCarry rest (carryOut x y c)

/-- A carry chain adds: its words, and the carry out at the weight above them, are the exact sum (R89). -/
theorem carryChain_sum (ps : List (Word × Word)) (c : Nat) :
    wordsVal (carryChain ps c) + 2 ^ (32 * ps.length) * chainCarry ps c =
      wordsVal (ps.map Prod.fst) + wordsVal (ps.map Prod.snd) + c := by
  induction ps generalizing c with
  | nil => simp [carryChain, chainCarry]
  | cons p ps ih =>
    obtain ⟨x, y⟩ := p
    have h1 : 2 ^ (32 * (ps.length + 1)) = 2 ^ 32 * 2 ^ (32 * ps.length) := by
      rw [two_pow_word_succ, Nat.mul_comm]
    have hs : (sumWord x y c).toNat + 2 ^ 32 * carryOut x y c = x.toNat + y.toNat + c := by
      simp only [sumWord, carryOut, wideSum, BitVec.toNat_ofNat]
      omega
    simp only [carryChain, chainCarry, wordsVal_cons, List.length_cons, List.map_cons, h1]
    have hi := ih (carryOut x y c)
    rw [Nat.mul_assoc]
    generalize 2 ^ (32 * ps.length) * chainCarry ps (carryOut x y c) = z at hi ⊢
    omega

@[simp] theorem length_carryChain (ps : List (Word × Word)) (c : Nat) :
    (carryChain ps c).length = ps.length := by
  induction ps generalizing c with
  | nil => rfl
  | cons p ps ih => obtain ⟨x, y⟩ := p; simp [carryChain, ih]

end Sys2Proof.Machine
end

