-- ==== Sys2Proof/Laws/Bits.lean ====
section
/-! SUPPORT. Bits of words and of values built from words (R12), and of the words the rotators join (R103, R106). -/

namespace Sys2Proof.Machine

theorem getLsbD_word (v : U256) (i b : Nat) (hb : b < 32) :
    (word v i).getLsbD b = v.getLsbD (32 * i + b) := by
  simp [word, hb]

/-- Bit j of a value is bit `j mod 32` of its word `j div 32` (R12). -/
theorem getLsbD_eq_word (v : U256) (j : Nat) :
    v.getLsbD j = (word v (j / 32)).getLsbD (j % 32) := by
  rw [getLsbD_word _ _ _ (Nat.mod_lt _ (by decide)), Nat.div_add_mod]

theorem getLsbD_buildWords (f : Nat → Word) (j : Nat) (h : j < 256) :
    (buildWords f).getLsbD j = (f (j / 32)).getLsbD (j % 32) := by
  rw [getLsbD_eq_word, word_buildWords f _ (by omega)]

/-- Bit b of a left-rotated word: from `hi` where b >= m, from the top m bits of `lo` below. -/
theorem getLsbD_joinLeft (hi lo : Word) (m b : Nat) (hm : m < 32) (hb : b < 32) :
    (joinLeft hi lo m).getLsbD b = if m ≤ b then hi.getLsbD (b - m) else lo.getLsbD (32 + b - m) := by
  unfold joinLeft
  by_cases h0 : m = 0
  · simp [h0]
  · by_cases hmb : m ≤ b
    · have : lo.getLsbD (32 - m + b) = false := BitVec.getLsbD_of_ge _ _ (by omega)
      simp [h0, hb, hmb, Nat.not_lt.mpr hmb, this, -BitVec.getLsbD_eq_getElem]
    · have : 32 - m + b = 32 + b - m := by omega
      simp [h0, hb, hmb, Nat.lt_of_not_le hmb, this]

/-- Bit b of a right-rotated word: from `lo` where b + m < 32, from the low bits of `hi` above. -/
theorem getLsbD_joinRight (hi lo : Word) (m b : Nat) (hm : m < 32) (hb : b < 32) :
    (joinRight hi lo m).getLsbD b =
      if b + m < 32 then lo.getLsbD (b + m) else hi.getLsbD (b + m - 32) := by
  unfold joinRight
  by_cases h0 : m = 0
  · simp [h0, hb]
  · by_cases hbm : b + m < 32
    · have : b < 32 - m := by omega
      simp [h0, hb, hbm, this, Nat.add_comm m b]
    · have h1 : ¬ b < 32 - m := by omega
      have h2 : lo.getLsbD (m + b) = false := BitVec.getLsbD_of_ge _ _ (by omega)
      have h3 : b - (32 - m) = b + m - 32 := by omega
      simp [h0, hb, hbm, h1, h2, h3, -BitVec.getLsbD_eq_getElem]

end Sys2Proof.Machine
end

