-- ==== Sys2Proof/Laws/Bytes.lean ====
section
/-! SUPPORT. Packing bytes into a port or register and reading them back (R23, R27). -/

namespace Sys2Proof

theorem bytesVal_lt (bs : List Byte) : bytesVal bs < 256 ^ bs.length := by
  induction bs with
  | nil => simp [bytesVal]
  | cons b bs ih =>
    have hb := b.isLt
    simp only [bytesVal, List.length_cons, Nat.pow_succ]
    omega

theorem bytesVal_div_mod (bs : List Byte) (p : Nat) :
    bytesVal bs / 256 ^ p % 256 = (bs.getD p 0#8).toNat := by
  induction bs generalizing p with
  | nil => simp [bytesVal]
  | cons b bs ih =>
    have hb := b.isLt
    cases p with
    | zero => simp [bytesVal]; omega
    | succ p =>
      have h : (b.toNat + 256 * bytesVal bs) / 256 = bytesVal bs := by omega
      simp only [bytesVal, Nat.pow_succ, Nat.mul_comm _ 256, ← Nat.div_div_eq_div_mul, h,
        List.getD_cons_succ]
      exact ih p

theorem two_pow_eight_mul (n : Nat) : 2 ^ (8 * n) = 256 ^ n := by rw [Nat.pow_mul]

/-- A byte read back from a packed list: the list's byte, 0x00 beyond its end. -/
theorem byteAt_packBytes (n : Nat) (bs : List Byte) (hl : 8 * bs.length ≤ n) (p : Nat) :
    byteAt (packBytes n bs) p = bs.getD p 0#8 := by
  apply BitVec.eq_of_toNat_eq
  have hlt : bytesVal bs < 2 ^ n :=
    Nat.lt_of_lt_of_le (two_pow_eight_mul _ ▸ bytesVal_lt bs) (Nat.pow_le_pow_right (by decide) hl)
  rw [← bytesVal_div_mod bs p]
  simp only [byteAt, packBytes, BitVec.extractLsb'_toNat, BitVec.toNat_ofNat,
    Nat.shiftRight_eq_div_pow, Nat.mod_eq_of_lt hlt, two_pow_eight_mul]

@[simp] theorem length_firstBytes {n : Nat} (v : BitVec n) (len : Nat) :
    (firstBytes v len).length = len := by simp [firstBytes]

/-- A list packed and read back whole is the list. -/
theorem firstBytes_packBytes (n : Nat) (bs : List Byte) (hl : 8 * bs.length ≤ n) :
    firstBytes (packBytes n bs) bs.length = bs := by
  apply List.ext_getElem (by simp)
  intro i h1 h2
  simp [firstBytes, byteAt_packBytes n bs hl, h2]

/-- Reading the first bytes depends on those bytes alone (R25, R77). -/
theorem firstBytes_congr {n m : Nat} (v : BitVec n) (w : BitVec m) (len : Nat)
    (h : ∀ p, p < len → byteAt v p = byteAt w p) : firstBytes v len = firstBytes w len :=
  List.map_congr_left fun p hp => h p (by simpa using hp)

end Sys2Proof
end

