-- ==== Sys2Proof/Laws/Config.lean ====
section
/-! SUPPORT. The bounds the open parameters meet by construction (R11). -/

namespace Sys2Proof

theorem le_hexInMax (n : Nat) (h : n ≤ 72) : n ≤ Config.hexInMax := by
  unfold Config.hexInMax; omega

theorem lt_two_pow_tlenBits (n : Nat) (h : n ≤ Config.hexInMax) : n < 2 ^ Config.tlenBits :=
  calc n ≤ Config.hexInMax := h
    _ < 2 ^ (Nat.log2 Config.hexInMax + 1) := Nat.lt_log2_self
    _ ≤ 2 ^ Config.tlenBits := Nat.pow_le_pow_right (by decide) (by unfold Config.tlenBits; omega)

theorem lat_pos (op : Opcode) (tlen : Nat) : 1 ≤ Config.lat op tlen := by
  unfold Config.lat; omega

/-- A text of legal length gives a command the ports can carry (R58). -/
theorem wf_fromHex (t : List Byte) (h : t.length ≤ Config.hexInMax) : (Instr.fromHex t.length t).wf = true := by
  simp [Instr.wf, tlenFits, textMatches, h, lt_two_pow_tlenBits _ h]

end Sys2Proof
end

