-- ==== Sys2Proof/Laws/State.lean ====
section
/-! SUPPORT. One lemma per field per update of State, true by rfl, so that no proof unfolds a record update. The
bits of the registers a reset leaves unwritten have none: nothing may rest on them (log entry 7). -/

namespace Sys2Proof.Machine.State

variable (s : State)

@[simp] theorem complete_busy (e : ErrCode) (l : LastCompletion) : (s.complete e l).busy = false := rfl
@[simp] theorem complete_pending (e : ErrCode) (l : LastCompletion) : (s.complete e l).pending = none := rfl
@[simp] theorem complete_rspR (e : ErrCode) (l : LastCompletion) : (s.complete e l).rspR = s.rspR := rfl
@[simp] theorem complete_rspW (e : ErrCode) (l : LastCompletion) : (s.complete e l).rspW = s.rspW := rfl
@[simp] theorem complete_rspTxt (e : ErrCode) (l : LastCompletion) : (s.complete e l).rspTxt = s.rspTxt := rfl
@[simp] theorem complete_rspTxtLen (e : ErrCode) (l : LastCompletion) : (s.complete e l).rspTxtLen = s.rspTxtLen := rfl
@[simp] theorem complete_rspErr (e : ErrCode) (l : LastCompletion) : (s.complete e l).rspErr = e := rfl
@[simp] theorem complete_rspValid (e : ErrCode) (l : LastCompletion) : (s.complete e l).rspValid = true := rfl
@[simp] theorem complete_written (e : ErrCode) (l : LastCompletion) : (s.complete e l).written = { s.written with err := true } := rfl
@[simp] theorem complete_last (e : ErrCode) (l : LastCompletion) : (s.complete e l).last = l := rfl
@[simp] theorem complete_errChecked (e : ErrCode) (l : LastCompletion) : (s.complete e l).errChecked = false := rfl
@[simp] theorem complete_offered (e : ErrCode) (l : LastCompletion) : (s.complete e l).offered = s.offered := rfl
@[simp] theorem complete_host (e : ErrCode) (l : LastCompletion) : (s.complete e l).host = s.host := rfl
@[simp] theorem complete_hostValue (e : ErrCode) (l : LastCompletion) : (s.complete e l).hostValue = s.hostValue := rfl

@[simp] theorem succeedR_busy (v : U256) : (s.succeedR v).busy = false := rfl
@[simp] theorem succeedR_pending (v : U256) : (s.succeedR v).pending = none := rfl
@[simp] theorem succeedR_rspR (v : U256) : (s.succeedR v).rspR = v := rfl
@[simp] theorem succeedR_rspW (v : U256) : (s.succeedR v).rspW = s.rspW := rfl
@[simp] theorem succeedR_rspTxt (v : U256) : (s.succeedR v).rspTxt = s.rspTxt := rfl
@[simp] theorem succeedR_rspTxtLen (v : U256) : (s.succeedR v).rspTxtLen = s.rspTxtLen := rfl
@[simp] theorem succeedR_rspErr (v : U256) : (s.succeedR v).rspErr = 0#2 := rfl
@[simp] theorem succeedR_rspValid (v : U256) : (s.succeedR v).rspValid = true := rfl
@[simp] theorem succeedR_written (v : U256) : (s.succeedR v).written = { s.written with err := true, r := true } := rfl
@[simp] theorem succeedR_last (v : U256) : (s.succeedR v).last = .wroteR := rfl
@[simp] theorem succeedR_errChecked (v : U256) : (s.succeedR v).errChecked = false := rfl
@[simp] theorem succeedR_offered (v : U256) : (s.succeedR v).offered = s.offered := rfl
@[simp] theorem succeedR_host (v : U256) : (s.succeedR v).host = s.host := rfl
@[simp] theorem succeedR_hostValue (v : U256) : (s.succeedR v).hostValue = s.hostValue := rfl

@[simp] theorem succeedW_busy (w : Word) : (s.succeedW w).busy = false := rfl
@[simp] theorem succeedW_pending (w : Word) : (s.succeedW w).pending = none := rfl
@[simp] theorem succeedW_rspR (w : Word) : (s.succeedW w).rspR = s.rspR := rfl
@[simp] theorem succeedW_rspW (w : Word) : (s.succeedW w).rspW = w := rfl
@[simp] theorem succeedW_rspTxt (w : Word) : (s.succeedW w).rspTxt = s.rspTxt := rfl
@[simp] theorem succeedW_rspTxtLen (w : Word) : (s.succeedW w).rspTxtLen = s.rspTxtLen := rfl
@[simp] theorem succeedW_rspErr (w : Word) : (s.succeedW w).rspErr = 0#2 := rfl
@[simp] theorem succeedW_rspValid (w : Word) : (s.succeedW w).rspValid = true := rfl
@[simp] theorem succeedW_written (w : Word) : (s.succeedW w).written = { s.written with err := true, w := true } := rfl
@[simp] theorem succeedW_last (w : Word) : (s.succeedW w).last = .wroteW := rfl
@[simp] theorem succeedW_errChecked (w : Word) : (s.succeedW w).errChecked = false := rfl
@[simp] theorem succeedW_offered (w : Word) : (s.succeedW w).offered = s.offered := rfl
@[simp] theorem succeedW_host (w : Word) : (s.succeedW w).host = s.host := rfl
@[simp] theorem succeedW_hostValue (w : Word) : (s.succeedW w).hostValue = s.hostValue := rfl

@[simp] theorem succeedTxt_busy (t : List Byte) : (s.succeedTxt t).busy = false := rfl
@[simp] theorem succeedTxt_pending (t : List Byte) : (s.succeedTxt t).pending = none := rfl
@[simp] theorem succeedTxt_rspR (t : List Byte) : (s.succeedTxt t).rspR = s.rspR := rfl
@[simp] theorem succeedTxt_rspW (t : List Byte) : (s.succeedTxt t).rspW = s.rspW := rfl
@[simp] theorem succeedTxt_rspTxt (t : List Byte) : (s.succeedTxt t).rspTxt = packBytes 512 t := rfl
@[simp] theorem succeedTxt_rspTxtLen (t : List Byte) : (s.succeedTxt t).rspTxtLen = BitVec.ofNat 7 t.length := rfl
@[simp] theorem succeedTxt_rspErr (t : List Byte) : (s.succeedTxt t).rspErr = 0#2 := rfl
@[simp] theorem succeedTxt_rspValid (t : List Byte) : (s.succeedTxt t).rspValid = true := rfl
@[simp] theorem succeedTxt_written (t : List Byte) : (s.succeedTxt t).written = { s.written with err := true, txt := true, txtLen := true } := rfl
@[simp] theorem succeedTxt_last (t : List Byte) : (s.succeedTxt t).last = .wroteTxt := rfl
@[simp] theorem succeedTxt_errChecked (t : List Byte) : (s.succeedTxt t).errChecked = false := rfl
@[simp] theorem succeedTxt_offered (t : List Byte) : (s.succeedTxt t).offered = s.offered := rfl
@[simp] theorem succeedTxt_host (t : List Byte) : (s.succeedTxt t).host = s.host := rfl
@[simp] theorem succeedTxt_hostValue (t : List Byte) : (s.succeedTxt t).hostValue = s.hostValue := rfl

@[simp] theorem raise_busy (k : ErrKind) : (s.raise k).busy = false := rfl
@[simp] theorem raise_pending (k : ErrKind) : (s.raise k).pending = none := rfl
@[simp] theorem raise_rspR (k : ErrKind) : (s.raise k).rspR = s.rspR := rfl
@[simp] theorem raise_rspW (k : ErrKind) : (s.raise k).rspW = s.rspW := rfl
@[simp] theorem raise_rspTxt (k : ErrKind) : (s.raise k).rspTxt = s.rspTxt := rfl
@[simp] theorem raise_rspTxtLen (k : ErrKind) : (s.raise k).rspTxtLen = s.rspTxtLen := rfl
@[simp] theorem raise_rspErr (k : ErrKind) : (s.raise k).rspErr = k.code := rfl
@[simp] theorem raise_rspValid (k : ErrKind) : (s.raise k).rspValid = true := rfl
@[simp] theorem raise_written (k : ErrKind) : (s.raise k).written = { s.written with err := true } := rfl
@[simp] theorem raise_last (k : ErrKind) : (s.raise k).last = .errored := rfl
@[simp] theorem raise_errChecked (k : ErrKind) : (s.raise k).errChecked = false := rfl
@[simp] theorem raise_offered (k : ErrKind) : (s.raise k).offered = s.offered := rfl
@[simp] theorem raise_host (k : ErrKind) : (s.raise k).host = s.host := rfl
@[simp] theorem raise_hostValue (k : ErrKind) : (s.raise k).hostValue = s.hostValue := rfl

@[simp] theorem resetEdge_busy : (s.resetEdge).busy = false := rfl
@[simp] theorem resetEdge_pending : (s.resetEdge).pending = none := rfl
@[simp] theorem resetEdge_rspValid : (s.resetEdge).rspValid = false := rfl
@[simp] theorem resetEdge_written : (s.resetEdge).written = Written.nothing := rfl
@[simp] theorem resetEdge_last : (s.resetEdge).last = .noneYet := rfl
@[simp] theorem resetEdge_errChecked : (s.resetEdge).errChecked = false := rfl
@[simp] theorem resetEdge_offered : (s.resetEdge).offered = s.offered := rfl
@[simp] theorem resetEdge_host : (s.resetEdge).host = s.host := rfl
@[simp] theorem resetEdge_hostValue : (s.resetEdge).hostValue = s.hostValue := rfl

@[simp] theorem accept_busy (c : Command) : (s.accept c).busy = true := rfl
@[simp] theorem accept_pending (c : Command) : (s.accept c).pending = some { cmd := c, remaining := Config.lat c.op c.txtLen.toNat } := rfl
@[simp] theorem accept_rspR (c : Command) : (s.accept c).rspR = s.rspR := rfl
@[simp] theorem accept_rspW (c : Command) : (s.accept c).rspW = s.rspW := rfl
@[simp] theorem accept_rspTxt (c : Command) : (s.accept c).rspTxt = s.rspTxt := rfl
@[simp] theorem accept_rspTxtLen (c : Command) : (s.accept c).rspTxtLen = s.rspTxtLen := rfl
@[simp] theorem accept_rspErr (c : Command) : (s.accept c).rspErr = s.rspErr := rfl
@[simp] theorem accept_rspValid (c : Command) : (s.accept c).rspValid = false := rfl
@[simp] theorem accept_written (c : Command) : (s.accept c).written = s.written := rfl
@[simp] theorem accept_last (c : Command) : (s.accept c).last = s.last := rfl
@[simp] theorem accept_errChecked (c : Command) : (s.accept c).errChecked = s.errChecked := rfl
@[simp] theorem accept_offered (c : Command) : (s.accept c).offered = s.offered := rfl
@[simp] theorem accept_host (c : Command) : (s.accept c).host = s.host := rfl
@[simp] theorem accept_hostValue (c : Command) : (s.accept c).hostValue = s.hostValue := rfl

@[simp] theorem quietEdge_busy : (s.quietEdge).busy = s.busy := rfl
@[simp] theorem quietEdge_pending : (s.quietEdge).pending = s.pending := rfl
@[simp] theorem quietEdge_rspR : (s.quietEdge).rspR = s.rspR := rfl
@[simp] theorem quietEdge_rspW : (s.quietEdge).rspW = s.rspW := rfl
@[simp] theorem quietEdge_rspTxt : (s.quietEdge).rspTxt = s.rspTxt := rfl
@[simp] theorem quietEdge_rspTxtLen : (s.quietEdge).rspTxtLen = s.rspTxtLen := rfl
@[simp] theorem quietEdge_rspErr : (s.quietEdge).rspErr = s.rspErr := rfl
@[simp] theorem quietEdge_rspValid : (s.quietEdge).rspValid = false := rfl
@[simp] theorem quietEdge_written : (s.quietEdge).written = s.written := rfl
@[simp] theorem quietEdge_last : (s.quietEdge).last = s.last := rfl
@[simp] theorem quietEdge_errChecked : (s.quietEdge).errChecked = s.errChecked := rfl
@[simp] theorem quietEdge_offered : (s.quietEdge).offered = s.offered := rfl
@[simp] theorem quietEdge_host : (s.quietEdge).host = s.host := rfl
@[simp] theorem quietEdge_hostValue : (s.quietEdge).hostValue = s.hostValue := rfl

@[simp] theorem waitEdge_busy (p : Pending) : (s.waitEdge p).busy = s.busy := rfl
@[simp] theorem waitEdge_pending (p : Pending) : (s.waitEdge p).pending = some { p with remaining := p.remaining - 1 } := rfl
@[simp] theorem waitEdge_rspR (p : Pending) : (s.waitEdge p).rspR = s.rspR := rfl
@[simp] theorem waitEdge_rspW (p : Pending) : (s.waitEdge p).rspW = s.rspW := rfl
@[simp] theorem waitEdge_rspTxt (p : Pending) : (s.waitEdge p).rspTxt = s.rspTxt := rfl
@[simp] theorem waitEdge_rspTxtLen (p : Pending) : (s.waitEdge p).rspTxtLen = s.rspTxtLen := rfl
@[simp] theorem waitEdge_rspErr (p : Pending) : (s.waitEdge p).rspErr = s.rspErr := rfl
@[simp] theorem waitEdge_rspValid (p : Pending) : (s.waitEdge p).rspValid = false := rfl
@[simp] theorem waitEdge_written (p : Pending) : (s.waitEdge p).written = s.written := rfl
@[simp] theorem waitEdge_last (p : Pending) : (s.waitEdge p).last = s.last := rfl
@[simp] theorem waitEdge_errChecked (p : Pending) : (s.waitEdge p).errChecked = s.errChecked := rfl
@[simp] theorem waitEdge_offered (p : Pending) : (s.waitEdge p).offered = s.offered := rfl
@[simp] theorem waitEdge_host (p : Pending) : (s.waitEdge p).host = s.host := rfl
@[simp] theorem waitEdge_hostValue (p : Pending) : (s.waitEdge p).hostValue = s.hostValue := rfl

@[simp] theorem deliver_busy (r : RspReg) : (s.deliver r).busy = s.busy := rfl
@[simp] theorem deliver_pending (r : RspReg) : (s.deliver r).pending = s.pending := rfl
@[simp] theorem deliver_rspR (r : RspReg) : (s.deliver r).rspR = s.rspR := rfl
@[simp] theorem deliver_rspW (r : RspReg) : (s.deliver r).rspW = s.rspW := rfl
@[simp] theorem deliver_rspTxt (r : RspReg) : (s.deliver r).rspTxt = s.rspTxt := rfl
@[simp] theorem deliver_rspTxtLen (r : RspReg) : (s.deliver r).rspTxtLen = s.rspTxtLen := rfl
@[simp] theorem deliver_rspErr (r : RspReg) : (s.deliver r).rspErr = s.rspErr := rfl
@[simp] theorem deliver_rspValid (r : RspReg) : (s.deliver r).rspValid = s.rspValid := rfl
@[simp] theorem deliver_written (r : RspReg) : (s.deliver r).written = s.written := rfl
@[simp] theorem deliver_last (r : RspReg) : (s.deliver r).last = s.last := rfl
@[simp] theorem deliver_errChecked (r : RspReg) : (s.deliver r).errChecked = (s.errChecked || r == .rspErr) := rfl
@[simp] theorem deliver_offered (r : RspReg) : (s.deliver r).offered = s.offered := rfl
@[simp] theorem deliver_host (r : RspReg) : (s.deliver r).host = s.host := rfl
@[simp] theorem deliver_hostValue (r : RspReg) : (s.deliver r).hostValue = some (s.content r) := rfl

@[simp] theorem withHost_busy (h : List HostEvent) : (s.withHost h).busy = s.busy := rfl
@[simp] theorem withHost_pending (h : List HostEvent) : (s.withHost h).pending = s.pending := rfl
@[simp] theorem withHost_rspR (h : List HostEvent) : (s.withHost h).rspR = s.rspR := rfl
@[simp] theorem withHost_rspW (h : List HostEvent) : (s.withHost h).rspW = s.rspW := rfl
@[simp] theorem withHost_rspTxt (h : List HostEvent) : (s.withHost h).rspTxt = s.rspTxt := rfl
@[simp] theorem withHost_rspTxtLen (h : List HostEvent) : (s.withHost h).rspTxtLen = s.rspTxtLen := rfl
@[simp] theorem withHost_rspErr (h : List HostEvent) : (s.withHost h).rspErr = s.rspErr := rfl
@[simp] theorem withHost_rspValid (h : List HostEvent) : (s.withHost h).rspValid = s.rspValid := rfl
@[simp] theorem withHost_written (h : List HostEvent) : (s.withHost h).written = s.written := rfl
@[simp] theorem withHost_last (h : List HostEvent) : (s.withHost h).last = s.last := rfl
@[simp] theorem withHost_errChecked (h : List HostEvent) : (s.withHost h).errChecked = s.errChecked := rfl
@[simp] theorem withHost_offered (h : List HostEvent) : (s.withHost h).offered = s.offered := rfl
@[simp] theorem withHost_host (h : List HostEvent) : (s.withHost h).host = h := rfl
@[simp] theorem withHost_hostValue (h : List HostEvent) : (s.withHost h).hostValue = s.hostValue := rfl

@[simp] theorem noteOffer_busy (p : Pins) : (s.noteOffer p).busy = s.busy := rfl
@[simp] theorem noteOffer_pending (p : Pins) : (s.noteOffer p).pending = s.pending := rfl
@[simp] theorem noteOffer_rspR (p : Pins) : (s.noteOffer p).rspR = s.rspR := rfl
@[simp] theorem noteOffer_rspW (p : Pins) : (s.noteOffer p).rspW = s.rspW := rfl
@[simp] theorem noteOffer_rspTxt (p : Pins) : (s.noteOffer p).rspTxt = s.rspTxt := rfl
@[simp] theorem noteOffer_rspTxtLen (p : Pins) : (s.noteOffer p).rspTxtLen = s.rspTxtLen := rfl
@[simp] theorem noteOffer_rspErr (p : Pins) : (s.noteOffer p).rspErr = s.rspErr := rfl
@[simp] theorem noteOffer_rspValid (p : Pins) : (s.noteOffer p).rspValid = s.rspValid := rfl
@[simp] theorem noteOffer_written (p : Pins) : (s.noteOffer p).written = s.written := rfl
@[simp] theorem noteOffer_last (p : Pins) : (s.noteOffer p).last = s.last := rfl
@[simp] theorem noteOffer_errChecked (p : Pins) : (s.noteOffer p).errChecked = s.errChecked := rfl
@[simp] theorem noteOffer_offered (p : Pins) : (s.noteOffer p).offered = if p.cmdValid && (p.rst || s.busy) then some p.cmd else none := rfl
@[simp] theorem noteOffer_host (p : Pins) : (s.noteOffer p).host = s.host := rfl
@[simp] theorem noteOffer_hostValue (p : Pins) : (s.noteOffer p).hostValue = s.hostValue := rfl

end Sys2Proof.Machine.State
end

