-- ==== Sys2Proof/Laws/Exec.lean ====
section
/-! SUPPORT. Said once: everything `exec`, an edge, a host read and a step can do. Later proofs cite these
instead of unfolding. -/

namespace Sys2Proof.Machine

/-- An instruction ends in one of the four completions (R32). -/
theorem exec_cases (i : Instr) (s : State) :
    (∃ v, exec i s = .next (s.succeedR v)) ∨ (∃ w, exec i s = .next (s.succeedW w)) ∨
    (∃ a, exec i s = .next (s.succeedTxt (formatHex a))) ∨ (∃ k, exec i s = .next (s.raise k)) := by
  cases i with
  | fromU32 v => exact .inl ⟨_, rfl⟩
  | fromWords a => exact .inl ⟨_, rfl⟩
  | fromHex tlen t =>
    simp only [exec, execFromHex]
    split
    · exact .inr (.inr (.inr ⟨_, rfl⟩))
    · split
      · exact .inl ⟨_, rfl⟩
      · exact .inr (.inr (.inr ⟨_, rfl⟩))
  | toHex a => exact .inr (.inr (.inl ⟨a, rfl⟩))
  | getWord a index =>
    simp only [exec, execGetWord]
    split
    · exact .inr (.inl ⟨_, rfl⟩)
    · exact .inr (.inr (.inr ⟨_, rfl⟩))
  | add a b => exact .inl ⟨_, rfl⟩
  | negate a => exact .inl ⟨_, rfl⟩
  | sub a b => exact .inl ⟨_, rfl⟩
  | rotateLeft a n => exact .inl ⟨_, rfl⟩
  | rotateRight a n => exact .inl ⟨_, rfl⟩
  | reservedA => exact .inr (.inr (.inr ⟨_, rfl⟩))
  | reservedB => exact .inr (.inr (.inr ⟨_, rfl⟩))
  | reservedC => exact .inr (.inr (.inr ⟨_, rfl⟩))
  | reservedD => exact .inr (.inr (.inr ⟨_, rfl⟩))
  | reservedE => exact .inr (.inr (.inr ⟨_, rfl⟩))
  | reservedF => exact .inr (.inr (.inr ⟨_, rfl⟩))

/-- A clock edge resets, waits, completes a command, accepts one or does nothing (R29, R30, R124). -/
theorem clockEdge_cases (p : Pins) (s : State) :
    (p.rst = true ∧ clockEdge p s = .next s.resetEdge) ∨
    (p.rst = false ∧ s.busy = true ∧ ∃ q, s.pending = some q ∧ 1 < q.remaining ∧
      clockEdge p s = .next (s.waitEdge q)) ∨
    (p.rst = false ∧ s.busy = true ∧ ∃ q, s.pending = some q ∧ q.remaining ≤ 1 ∧
      clockEdge p s = exec (decode q.cmd) s) ∨
    (p.rst = false ∧ s.busy = false ∧ p.cmdValid = true ∧ clockEdge p s = .next (s.accept p.cmd)) ∨
    (p.rst = false ∧ (s.busy = true → s.pending = none) ∧ (s.busy = false → p.cmdValid = false) ∧
      clockEdge p s = .next s.quietEdge) := by
  cases hr : p.rst with
  | true => exact .inl ⟨rfl, by simp [clockEdge, hr]⟩
  | false =>
    refine .inr ?_
    cases hb : s.busy with
    | true =>
      cases hp : s.pending with
      | none => exact .inr (.inr (.inr ⟨rfl, fun _ => rfl, by simp, by simp [clockEdge, busyEdge, hr, hb, hp]⟩))
      | some q =>
        by_cases hq : q.remaining ≤ 1
        · exact .inr (.inl ⟨rfl, rfl, q, rfl, hq, by simp [clockEdge, busyEdge, hr, hb, hp, hq]⟩)
        · exact .inl ⟨rfl, rfl, q, rfl, by omega, by simp [clockEdge, busyEdge, hr, hb, hp, hq]⟩
    | false =>
      cases hv : p.cmdValid with
      | true => exact .inr (.inr (.inl ⟨rfl, rfl, rfl, by simp [clockEdge, hr, hb, hv]⟩))
      | false => exact .inr (.inr (.inr ⟨rfl, by simp, fun _ => rfl, by simp [clockEdge, hr, hb, hv]⟩))

/-- A read of the last command's result delivers the register, or stops with one of four host faults (R123). -/
theorem hostReadResult_cases (r : RspReg) (s : State) :
    hostReadResult r s = .next (s.deliver r) ∨ hostReadResult r s = .fault (.readBeforeCompletion r) ∨
    hostReadResult r s = .fault (.readUnwritten r) ∨ hostReadResult r s = .fault (.readStale r) ∨
    hostReadResult r s = .fault (.errorNotChecked r) := by
  unfold hostReadResult
  repeat' split
  all_goals simp

/-- A standing read delivers the register, or stops at an unwritten one or before RSP_ERR was read (R33, R130, R131). -/
theorem hostReadStanding_cases (r : RspReg) (s : State) :
    (s.isWritten r = true ∧ (r ≠ .rspErr → s.errChecked = true) ∧ hostReadStanding r s = .next (s.deliver r)) ∨
    (s.isWritten r = false ∧ hostReadStanding r s = .fault (.readUnwritten r)) ∨
    (s.isWritten r = true ∧ r ≠ .rspErr ∧ s.errChecked = false ∧
      hostReadStanding r s = .fault (.errorNotChecked r)) := by
  cases h : s.isWritten r <;> cases he : s.errChecked <;> cases r <;> simp [hostReadStanding, h, he]

theorem hostEdge_of_breaksHold (p : Pins) (s : State) (h : s.breaksHold p = true) :
    hostEdge p s = .fault .commandNotHeld := if_pos h

theorem hostEdge_of_held (p : Pins) (s : State) (h : s.breaksHold p = false) :
    hostEdge p s = clockEdge p (s.noteOffer p) := if_neg (by simp [h])

/-- An edge the host drives is a clock edge of the core, or the host fault of a command not held (R129). -/
theorem hostEdge_cases (p : Pins) (s : State) :
    (s.breaksHold p = false ∧ hostEdge p s = clockEdge p (s.noteOffer p)) ∨
    (s.breaksHold p = true ∧ hostEdge p s = .fault .commandNotHeld) := by
  cases h : s.breaksHold p with
  | false => exact .inl ⟨rfl, hostEdge_of_held p s h⟩
  | true => exact .inr ⟨rfl, hostEdge_of_breaksHold p s h⟩

/-- The obligation is broken exactly where a command is on offer and an edge without reset does not present it. -/
theorem breaksHold_iff (s : State) (p : Pins) : s.breaksHold p = true ↔
    ∃ c, s.offered = some c ∧ p.rst = false ∧ (p.cmdValid = true → p.cmd ≠ c) := by
  cases h : s.offered with
  | none => simp [State.breaksHold, h]
  | some c => cases hr : p.rst <;> cases hv : p.cmdValid <;> simp [State.breaksHold, h, hr, hv]

@[simp] theorem breaksHold_of_no_offer (s : State) (p : Pins) (h : s.offered = none) : s.breaksHold p = false := by
  simp [State.breaksHold, h]

@[simp] theorem breaksHold_of_reset (s : State) (p : Pins) (h : p.rst = true) : s.breaksHold p = false := by
  cases ho : s.offered <;> simp [State.breaksHold, ho, h]

/-- A step is an edge the host drives in a state that differs at most in the host's coming actions, the end of a wait, a host
read, or the refusal of a term the ports cannot carry. -/
theorem step_cases (s : State) :
    (∃ p h, step s = hostEdge p (s.withHost h) ∧
      (p.rst = true → s.host = .edge p :: h)) ∨ (∃ h, step s = .next (s.withHost h)) ∨
    (∃ r h, s.host = .readResult r :: h ∧ step s = hostReadResult r (s.withHost h)) ∨
    (∃ r h, s.host = .readStanding r :: h ∧ step s = hostReadStanding r (s.withHost h)) ∨
    (∃ i h, s.host = .issue i :: h ∧ i.wf = false ∧ step s = .refused .notPresentable) := by
  have same : s = s.withHost s.host := rfl
  unfold step nextStep
  cases hh : s.host with
  | nil => exact .inl ⟨idlePins, [], by simp [State.withHost, ← hh], by simp [idlePins]⟩
  | cons ev h =>
    cases ev with
    | edge p => exact .inl ⟨p, h, rfl, fun _ => rfl⟩
    | issue i =>
      cases hw : i.wf with
      | false => exact .inr (.inr (.inr (.inr ⟨i, h, rfl, hw, by simp [hostEvent, hw]⟩)))
      | true =>
        refine .inl ⟨presentPins i, if s.busy then s.host else h, ?_, by simp [presentPins]⟩
        cases hb : s.busy <;> simp [hostEvent, hw, hb, ← same]
    | await =>
      cases hb : s.busy with
      | true => exact .inl ⟨idlePins, s.host, by simp [hostEvent, hb, ← same], by simp [idlePins]⟩
      | false => exact .inr (.inl ⟨h, by simp [hostEvent, hb]⟩)
    | readResult r => exact .inr (.inr (.inl ⟨r, h, rfl, rfl⟩))
    | readStanding r => exact .inr (.inr (.inr (.inl ⟨r, h, rfl, rfl⟩)))

end Sys2Proof.Machine
end

