-- ==== Sys2Proof/Laws/Hex.lean ====
section
/-! SUPPORT. Digits and nibbles (R68, R78), and the number a list of digits denotes (R72). -/

namespace Sys2Proof.Machine

/-- The parser reads back each character the formatter writes. -/
theorem nib?_hexchar (d : Nat) (h : d < 16) : nib? (hexchar d) = some d := by
  interval_cases d <;> rfl

theorem nib_hexchar (d : Nat) (h : d < 16) : nib (hexchar d) = d := by
  simp [nib, nib?_hexchar d h]

theorem isHexDigit_hexchar (d : Nat) (h : d < 16) : isHexDigit (hexchar d) = true := by
  simp [isHexDigit, nib?_hexchar d h]

theorem nib_lt (c : Byte) : nib c < 16 := by
  unfold nib nib?
  simp only
  split
  · simp; omega
  · split
    · simp; omega
    · split
      · simp; omega
      · simp

theorem nibbleAt_lt {n : Nat} (v : BitVec n) (j : Nat) : nibbleAt v j < 16 := (v.extractLsb' (4 * j) 4).isLt

theorem nibbleAt_eq {n : Nat} (v : BitVec n) (j : Nat) : nibbleAt v j = v.toNat / 16 ^ j % 16 := by
  have h : 2 ^ (4 * j) = 16 ^ j := by rw [Nat.pow_mul]
  simp [nibbleAt, BitVec.extractLsb'_toNat, Nat.shiftRight_eq_div_pow, h]

/-- The character '0' stands for the nibble 0 alone (R79). -/
theorem hexchar_eq_zeroChar (d : Nat) (h : d < 16) : hexchar d = zeroChar ↔ d = 0 := by
  interval_cases d <;> decide

theorem digitsVal_lt (cs : List Byte) : digitsVal cs < 16 ^ cs.length := by
  induction cs with
  | nil => simp [digitsVal]
  | cons c cs ih =>
    have := nib_lt c
    simp only [digitsVal, List.length_cons, Nat.pow_succ]
    omega

theorem digitsVal_append (cs ds : List Byte) :
    digitsVal (cs ++ ds) = digitsVal cs + 16 ^ cs.length * digitsVal ds := by
  induction cs with
  | nil => simp [digitsVal]
  | cons c cs ih =>
    simp only [List.cons_append, digitsVal, ih, List.length_cons, Nat.pow_succ]
    rw [Nat.mul_add, ← Nat.add_assoc, ← Nat.mul_assoc, Nat.mul_comm 16 (16 ^ cs.length)]

/-- The number of the characters of the d lowest nibbles, lowest first. -/
theorem digitsVal_hexchars {n : Nat} (v : BitVec n) (d : Nat) :
    digitsVal ((List.range d).map fun j => hexchar (nibbleAt v j)) = v.toNat % 16 ^ d := by
  induction d with
  | zero => simp [digitsVal, Nat.mod_one]
  | succ d ih =>
    rw [List.range_succ, List.map_append, digitsVal_append, ih]
    simp only [List.map_cons, List.map_nil, digitsVal, List.length_map, List.length_range,
      nib_hexchar _ (nibbleAt_lt v d), Nat.mul_zero, Nat.add_zero]
    rw [nibbleAt_eq, Nat.pow_succ, Nat.mod_mul]

theorem length_hex8 (w : Word) : (hex8 w).length = 8 := by simp [hex8]

end Sys2Proof.Machine
end

