-- ==== Sys2Proof/Laws/PerInstr.lean ====
section
/-! SUPPORT. The family OpField of LAWS.json: the encoder writes an instruction's own OP value, and the decoder
reads from those ports an instruction of the same operand form (R53, R54). -/

namespace Sys2Proof.Laws.OpField

/-- The encoder's OP is the instruction's, and it decodes to an instruction of the same form. -/
def Statement (i : Instr) : Prop := (encode i).op = opcode i ∧ (decode (encode i)).form = i.form

theorem fromU32 (v : Word) : Statement (.fromU32 v) := ⟨rfl, rfl⟩

theorem fromWords (a : U256) : Statement (.fromWords a) := ⟨rfl, rfl⟩

theorem fromHex (tlen : Nat) (t : List Byte) : Statement (.fromHex tlen t) := ⟨rfl, rfl⟩

theorem toHex (a : U256) : Statement (.toHex a) := ⟨rfl, rfl⟩

theorem getWord (a : U256) (index : Word) : Statement (.getWord a index) := ⟨rfl, rfl⟩

theorem add (a b : U256) : Statement (.add a b) := ⟨rfl, rfl⟩

theorem negate (a : U256) : Statement (.negate a) := ⟨rfl, rfl⟩

theorem sub (a b : U256) : Statement (.sub a b) := ⟨rfl, rfl⟩

theorem rotateLeft (a : U256) (n : Word) : Statement (.rotateLeft a n) := ⟨rfl, rfl⟩

theorem rotateRight (a : U256) (n : Word) : Statement (.rotateRight a n) := ⟨rfl, rfl⟩

theorem reservedA : Statement (.reservedA) := ⟨rfl, rfl⟩

theorem reservedB : Statement (.reservedB) := ⟨rfl, rfl⟩

theorem reservedC : Statement (.reservedC) := ⟨rfl, rfl⟩

theorem reservedD : Statement (.reservedD) := ⟨rfl, rfl⟩

theorem reservedE : Statement (.reservedE) := ⟨rfl, rfl⟩

theorem reservedF : Statement (.reservedF) := ⟨rfl, rfl⟩

end Sys2Proof.Laws.OpField
end

