-- ==== Sys2Proof/Laws/Run.lean ====
section
/-! SUPPORT. Runs of the host's `core`, one step at a time, and what every completion leaves. -/

namespace Sys2Proof.Machine

theorem core_run_zero (s : State) : Sys2Proof.core.run 0 s = .next s := by
  simp only [Host.Core.run]

theorem core_run_next (k : Nat) (s t : State) (h : step s = .next t) :
    Sys2Proof.core.run (k + 1) s = Sys2Proof.core.run k t := by
  have h' : Sys2Proof.core.step s = .next t := h
  simp only [Host.Core.run, h']

theorem core_run_one (s : State) : Sys2Proof.core.run 1 s = step s := by
  have h : Sys2Proof.core.step s = step s := rfl
  cases hs : step s <;> simp only [Host.Core.run, h, hs] <;> rfl

/-- Whatever the instruction, its completion clears BUSY and the pending command, raises rsp_valid, writes RSP_ERR,
and leaves the host's part of the state (R30, R32). -/
theorem exec_completes (i : Instr) (s t : State) (h : exec i s = .next t) :
    t.busy = false ∧ t.pending = none ∧ t.rspValid = true ∧ t.written.err = true ∧ t.errChecked = false ∧
      t.host = s.host ∧ t.hostValue = s.hostValue ∧ t.offered = s.offered := by
  rcases exec_cases i s with ⟨_, e⟩ | ⟨_, e⟩ | ⟨_, e⟩ | ⟨_, e⟩ <;> rw [e] at h <;> cases h <;> simp

end Sys2Proof.Machine
end

