-- ==== Sys2Proof/Tests/Slice0.lean ====
section
/-! SUPPORT. Tests of the model's own author: well-formedness, decoding of words written out from the spec's table,
one step of each instruction with the results spec/95_test_vectors.md gives, and for each obligation that has
hypotheses a state and operands that meet them. -/

namespace Sys2Proof.Tests

open Sys2Proof.Machine Sys2Proof.Claims

/-! ## Helpers -/

/-- RSP_ERR and RSP_R after a completion. -/
def rspR? : Host.Outcome State Fault Refusal → Option (ErrCode × U256)
  | .next s => some (s.rspErr, s.rspR)
  | .fault _ => none
  | .refused _ => none

/-- RSP_ERR and RSP_W after a completion. -/
def rspW? : Host.Outcome State Fault Refusal → Option (ErrCode × Word)
  | .next s => some (s.rspErr, s.rspW)
  | .fault _ => none
  | .refused _ => none

/-- The text after a completion. -/
def text? : Host.Outcome State Fault Refusal → Option (List Byte)
  | .next s => some s.text
  | .fault _ => none
  | .refused _ => none

/-- A state in which every result register holds a value of its own, to show what stays unchanged. -/
def marked : State :=
  { State.reset with
    rspR := 0x11#256, rspW := 0x22#32, rspTxt := packBytes 512 [0x33#8], rspTxtLen := 1#7
    written := { r := true, w := true, txt := true, txtLen := true, err := true } }

/-- The same, with RSP_ERR read since the last completion. -/
def checked : State := { marked with errChecked := true }

/-- A command with every operand port driven, so that an operand taken from the wrong port shows. -/
def fullCommand (op : Opcode) : Command :=
  { op := op, opa := 0xA#256, opb := 0xB#256, ops := 0x5#32, txtLen := 0#_, txtIn := 0#_ }

/-- The pins of a cycle with reset asserted. -/
def resetPins : Pins := { rst := true, cmdValid := true, cmd := fullCommand 0x5#4 }

/-- The value of §8 scenario C: word 0 is 0xAB, word 7 is 0xCD000000. -/
def scenarioC : U256 := 0xCD000000000000000000000000000000000000000000000000000000000000AB#256

/-- "a5500" (P1 step 1's bytes). -/
def a5500 : List Byte := [0x61#8, 0x35#8, 0x35#8, 0x30#8, 0x30#8]

/-- A state with an addition at its completing edge. -/
def atAdd : State := State.reset.atCompletionOf (fullCommand 0x5#4)

/-- The same, with a negation on offer that the host has to hold. -/
def holding : State := { atAdd with offered := some (encode (.negate 1#256)), host := [] }

/-! ## Well-formedness -/

theorem test_wf_accepts_text : (Instr.fromHex 5 a5500).wf = true :=
  wf_fromHex a5500 (le_hexInMax _ (by decide))

theorem test_wf_refuses_fewer_bytes_than_the_length : (Instr.fromHex 3 [0x61#8]).wf = false := by
  simp [Instr.wf, textMatches, le_hexInMax 3 (by decide)]

theorem test_wf_refuses_bytes_with_a_reserved_length :
    (Instr.fromHex (Config.hexInMax + 1) [0x61#8]).wf = false := by
  simp [Instr.wf, textMatches]

theorem test_wf_refuses_a_length_the_port_cannot_hold : (Instr.fromHex (2 ^ Config.tlenBits) []).wf = false := by
  simp [Instr.wf, tlenFits]

/-! ## Decoding, each OP written out from the table of R53, all ports driven -/

theorem test_decode_from_u32 : decode (fullCommand 0b0000#4) = .fromU32 0x5#32 := by decide
theorem test_decode_from_words : decode (fullCommand 0b0001#4) = .fromWords 0xA#256 := by decide
theorem test_decode_from_hex : decode (fullCommand 0b0010#4) = .fromHex 0 [] := by decide
theorem test_decode_to_hex : decode (fullCommand 0b0011#4) = .toHex 0xA#256 := by decide
theorem test_decode_get_word : decode (fullCommand 0b0100#4) = .getWord 0xA#256 0x5#32 := by decide
theorem test_decode_add : decode (fullCommand 0b0101#4) = .add 0xA#256 0xB#256 := by decide
theorem test_decode_negate : decode (fullCommand 0b0110#4) = .negate 0xA#256 := by decide
theorem test_decode_sub : decode (fullCommand 0b0111#4) = .sub 0xA#256 0xB#256 := by decide
theorem test_decode_rotate_left : decode (fullCommand 0b1000#4) = .rotateLeft 0xA#256 0x5#32 := by decide
theorem test_decode_rotate_right : decode (fullCommand 0b1001#4) = .rotateRight 0xA#256 0x5#32 := by decide
theorem test_decode_reserved_0xA : decode (fullCommand 0b1010#4) = .reservedA := by decide
theorem test_decode_reserved_0xB : decode (fullCommand 0b1011#4) = .reservedB := by decide
theorem test_decode_reserved_0xC : decode (fullCommand 0b1100#4) = .reservedC := by decide
theorem test_decode_reserved_0xD : decode (fullCommand 0b1101#4) = .reservedD := by decide
theorem test_decode_reserved_0xE : decode (fullCommand 0b1110#4) = .reservedE := by decide
theorem test_decode_reserved_0xF : decode (fullCommand 0b1111#4) = .reservedF := by decide

/-- P1 step 1: TLEN = 5 and the bytes 0x61 0x35 0x35 0x30 0x30 on the low bytes of `txt_in`. -/
theorem test_decode_text : decode { fullCommand 0b0010#4 with
    txtLen := BitVec.ofNat _ 5, txtIn := packBytes _ a5500 } = .fromHex 5 a5500 := by
  have h5 : 5 ≤ Config.hexInMax := le_hexInMax 5 (by decide)
  have h : (BitVec.ofNat Config.tlenBits 5).toNat = 5 := by simp [Nat.mod_eq_of_lt (lt_two_pow_tlenBits 5 h5)]
  have hb := firstBytes_packBytes (8 * Config.hexInMax) a5500 (Nat.mul_le_mul_left 8 h5)
  have hl : a5500.length = 5 := by decide
  rw [hl] at hb
  simp [decode, decodeText, fullCommand, h, h5, hb]

/-- The two ends of the OP table through the host's table word. -/
theorem test_table_word_ends :
    decodeTableWord 8 0x0 = some (.fromU32 0#32) ∧ decodeTableWord 8 0xF = some .reservedF := by decide

/-! ## One instruction each; expected results from spec/95_test_vectors.md -/

/-- U32-2: not MAX, no sign extension. -/
theorem test_from_u32 : rspR? (exec (.fromU32 0xFFFFFFFF#32) marked) = some (0#2, 0xFFFFFFFF#256) := by decide

/-- FW-2, the words 1 to 8 in order. -/
theorem test_from_words :
    rspR? (exec (.fromWords (ofWords [1#32, 2#32, 3#32, 4#32, 5#32, 6#32, 7#32, 8#32])) marked) =
      some (0#2, 0x0000000800000007000000060000000500000004000000030000000200000001#256) := by decide

/-- HEX3. -/
theorem test_from_hex : rspR? (exec (.fromHex 5 a5500) marked) = some (0#2, 0xA5500#256) := by decide

/-- HEX14, "0x12": InvalidDigit, RSP_R unchanged. -/
theorem test_from_hex_invalid :
    rspR? (exec (.fromHex 4 [0x30#8, 0x78#8, 0x31#8, 0x32#8]) marked) = some (1#2, 0x11#256) := by decide

/-- HEX12, "1" and 64 zeros: the 1 is discarded. -/
theorem test_from_hex_overlong : parseHex (0x31#8 :: List.replicate 64 0x30#8) = 0#256 := by decide

/-- FMT3. -/
theorem test_to_hex : text? (exec (.toHex 0xA5500#256) marked) = some a5500 := by decide +kernel

/-- FMT4 (90_conflicts C1): "cd000000", 54 zeros, "ab". -/
theorem test_to_hex_inner_zeros : text? (exec (.toHex scenarioC) marked) =
    some ([0x63#8, 0x64#8] ++ List.replicate 60 0x30#8 ++ [0x61#8, 0x62#8]) := by decide +kernel

/-- GW-3. -/
theorem test_get_word : rspW? (exec (.getWord (ofWords [1#32, 2#32, 3#32, 4#32, 5#32, 6#32, 7#32, 8#32]) 7#32)
    marked) = some (0#2, 8#32) := by decide

/-- GW-5: S[2:0] = 0 does not select word 0. -/
theorem test_get_word_out_of_range : rspW? (exec (.getWord 1#256 0x10#32) marked) = some (2#2, 0x22#32) := by decide

/-- ADD5: the three-term carry in word 1. -/
theorem test_add : rspR? (exec (.add 0xFFFFFFFFFFFFFFFF#256 0xFFFFFFFF00000001#256) marked) =
    some (0#2, 0x1FFFFFFFF00000000#256) := by decide

/-- ADD2: the carry ripples through all 8 words and out. -/
theorem test_add_wraps : rspR? (exec (.add U256.max U256.one) marked) = some (0#2, 0#256) := by decide

/-- NEG5. -/
theorem test_negate : rspR? (exec (.negate 0x100000000#256) marked) =
    some (0#2, 0xFFFFFFFFFFFFFFFFFFFFFFFFFFFFFFFFFFFFFFFFFFFFFFFFFFFFFFFF00000000#256) := by decide

/-- SUB6: A is the minuend, and the result wraps. -/
theorem test_sub : rspR? (exec (.sub 5#256 7#256) marked) =
    some (0#2, 0xFFFFFFFFFFFFFFFFFFFFFFFFFFFFFFFFFFFFFFFFFFFFFFFFFFFFFFFFFFFFFFFE#256) := by decide

/-- ROL1. -/
theorem test_rotate_left : rspR? (exec (.rotateLeft scenarioC 4#32) marked) =
    some (0#2, 0xD000000000000000000000000000000000000000000000000000000000000ABC#256) := by decide

/-- ROL8: a multiple of 32 ORs in nothing of the neighbour word. -/
theorem test_rotate_left_by_a_word : rspR? (exec (.rotateLeft 0x89ABCDEF#256 32#32) marked) =
    some (0#2, 0x89ABCDEF00000000#256) := by decide

/-- ROR10: an amount above 256. -/
theorem test_rotate_right : rspR? (exec (.rotateRight scenarioC 259#32) marked) =
    some (0#2, 0x79A0000000000000000000000000000000000000000000000000000000000015#256) := by decide

/-- RSV-1 and RSV-2. -/
theorem test_reserved : rspR? (exec .reservedA marked) = some (3#2, 0x11#256) ∧
    rspR? (exec .reservedF marked) = some (3#2, 0x11#256) := by decide

/-- The command a table word stands for runs at the first step after reset. -/
theorem test_first_step_runs_the_table_word :
    text? (step (State.reset.withFetchWord 8 0b0011)) = some [0x30#8] := by decide +kernel

/-- P1 to P4 rest on unwritten registers being unreadable after reset (R33). -/
theorem test_read_after_reset_faults : hostReadResult .rspErr State.reset = .fault (.readUnwritten .rspErr) := rfl

/-- R129, D28: a host that changes or lowers a command it presented while cmd_ready was 0 has gone wrong; at an edge
that resets the core it has not (log entry 12). -/
theorem test_dropping_a_held_command_faults :
    hostEdge idlePins holding = .fault .commandNotHeld ∧
    hostEdge (presentPins (.negate 2#256)) holding = .fault .commandNotHeld ∧
    hostEdge resetPins holding = .next (holding.noteOffer resetPins).resetEdge :=
  ⟨hostEdge_of_breaksHold _ _ (by decide), hostEdge_of_breaksHold _ _ (by decide), rfl⟩

/-- R131: an earlier result is not used before RSP_ERR has been read since the last completion. -/
theorem test_standing_read_needs_the_error_check :
    hostReadStanding .rspR marked = .fault (.errorNotChecked .rspR) ∧
    hostReadStanding .rspErr marked = .next (marked.deliver .rspErr) ∧
    hostReadStanding .rspR (marked.deliver .rspErr) = .next ((marked.deliver .rspErr).deliver .rspR) :=
  ⟨rfl, rfl, rfl⟩

/-! ## Witnesses: for each obligation with hypotheses, a case that meets them -/

theorem witness_OpenParameters : (0x5#4 : Opcode) ≠ 2#4 := by decide

/-- Each OP value of the premises is some command's; a text of 0 bytes is legal. -/
theorem witness_EveryOpValueDecodesToItsRow : ∀ op : Opcode, ∃ c : Command, c.op = op ∧ c.txtLen.toNat ≤ Config.hexInMax :=
  fun op => ⟨fullCommand op, rfl, by simp [fullCommand]⟩

/-- The reserved-length premise is met wherever the length port can hold such a length (R58). -/
theorem witness_EveryOpValueDecodesToItsRow_reserved_length (h : Config.hexInMax < 2 ^ Config.tlenBits - 1) :
    ∃ c : Command, c.op = 0b0010#4 ∧ Config.hexInMax < c.txtLen.toNat :=
  ⟨{ fullCommand 0b0010#4 with txtLen := BitVec.allOnes _ }, rfl, by simpa using h⟩

theorem witness_DecodeOfEncodeIsTheInstruction : (Instr.fromHex 5 a5500).wf = true ∧ Instr.reservedF.wf = true :=
  ⟨test_wf_accepts_text, rfl⟩

/-- Each form's operands are read by some command's form. -/
theorem witness_EncodeOfDecodeRestoresTheReadPorts :
    (decode (fullCommand 0x5#4)).form.readsA = true ∧ (decode (fullCommand 0x5#4)).form.readsB = true ∧
    (decode (fullCommand 0x8#4)).form.readsS = true ∧ (decode (fullCommand 0x2#4)).form.readsT = true := by decide

/-- Two different commands that agree on what from_u32 reads. -/
theorem witness_UnreadPortsAreIgnored : ∃ c d : Command, c ≠ d ∧ c.op = d.op ∧ c.ops = d.ops ∧
    (decode c).form.readsS = true ∧ (decode c).form.readsA = false ∧ (decode c).form.readsT = false :=
  ⟨fullCommand 0#4, { fullCommand 0#4 with opa := 0#256 }, by simp [fullCommand], rfl, rfl, by decide, by decide,
    by decide⟩

theorem witness_FromU32PutsScalarInWordZero : 1 ≤ 1 ∧ 7 < 8 := by decide

/-- The bytes at the ends of each range. -/
theorem witness_HexDigitTable : ([0x30#8, 0x39#8, 0x61#8, 0x66#8, 0x41#8, 0x46#8].all isHexDigit = true) ∧
    [0x00#8, 0x2F#8, 0x3A#8, 0x40#8, 0x47#8, 0x60#8, 0x67#8, 0xFF#8].any isHexDigit = false := by decide

theorem witness_ParserDatapathsAgree : ∀ c ∈ a5500, isHexDigit c = true := by decide

theorem witness_FromHexIgnoresLetterCase : isHexDigit 0x46#8 = true ∧ lowerCase 0x46#8 = 0x66#8 := by decide

theorem witness_FromHexGivesTheNumberOfTheLastDigits :
    5 ≤ Config.hexInMax ∧ a5500.length = 5 ∧ (∀ c ∈ a5500, isHexDigit c = true) :=
  ⟨le_hexInMax 5 (by decide), by decide, by decide⟩

theorem witness_FromHexRejectsAnyNonDigit :
    2 ≤ Config.hexInMax ∧ [0x30#8, 0x78#8].length = 2 ∧ isHexDigit 0x78#8 = false ∧ 0x80 ≤ (0x80#8).toNat :=
  ⟨le_hexInMax 2 (by decide), rfl, by decide, by decide⟩

theorem witness_FromHexRejectsAReservedLength : Config.hexInMax < Config.hexInMax + 1 := Nat.lt_succ_self _

theorem witness_FromHexDiscardsTheDigitsBeforeTheLast64 :
    (List.replicate 64 0x66#8 : List Byte).length = 64 ∧
    (List.replicate 8 0x66#8 ++ List.replicate 64 0x66#8 : List Byte).length ≤ Config.hexInMax ∧
    ∀ c ∈ (List.replicate 8 0x66#8 : List Byte), isHexDigit c = true :=
  ⟨by simp, le_hexInMax _ (by simp), by decide⟩

theorem witness_FromHexOfEmptyAndZeroText :
    ([] : List Byte).length + 1 ≤ Config.hexInMax ∧ [0x31#8].length + 64 ≤ Config.hexInMax ∧
    (∀ c ∈ [0x31#8], isHexDigit c = true) ∧ 3 + a5500.length ≤ Config.hexInMax :=
  ⟨le_hexInMax _ (by decide), le_hexInMax _ (by decide), by decide, le_hexInMax _ (by decide)⟩

theorem witness_ToHexWritesTheMinimalNumeral : (0#256 : U256) = 0#256 ∧ (1#256 : U256) ≠ 0#256 := by decide

theorem witness_ToHexPrintsLowerWordsInFull :
    7 < 8 ∧ word scenarioC 7 ≠ 0#32 ∧ ∀ i, 7 < i → i < 8 → word scenarioC i = 0#32 :=
  ⟨by decide, by decide, fun i _ _ => by omega⟩

theorem witness_ToHexLength : scenarioC ≠ 0#256 := by decide

theorem witness_OnlyZeroBeginsWithTheDigitZero : ∃ t, exec (.toHex 0#256) State.reset = .next t := ⟨_, rfl⟩

theorem witness_GetWordChecksItsIndex : (7#32 : Word).toNat ≤ 7 ∧ 7 < (8#32 : Word).toNat := by decide

theorem witness_CarryIsBit32OfTheExactSum : carryOut 0xFFFFFFFF#32 1#32 0 = 1 ∧ carryOut 0xFFFFFFFE#32 1#32 0 = 0 := by
  decide

theorem witness_ValueIsWeightedSumOfWords : 7 < 8 ∧ 31 < 32 ∧ (word scenarioC 7).getLsbD 31 = true := by decide

theorem witness_HexCharacterTable : 9 < 10 ∧ hexchar 9 = 0x39#8 := by decide

theorem witness_RotateMovesEveryBit : 255 < 256 ∧ (rol 1#256 255).getLsbD 255 = true ∧
    (ror 1#256 1).getLsbD 255 = true := by decide

theorem witness_CarryChainAddsModulo : 0 ≤ 1 ∧ 1 ≤ 1 := by decide

theorem witness_RotationAmountIsTheLowByte :
    (1#32 : Word) ≠ 257#32 ∧ (1#32 : Word).extractLsb' 0 8 = (257#32 : Word).extractLsb' 0 8 := by decide

theorem witness_MultiplesOf32PermuteWords : (224#32 : Word).toNat % 32 = 0 := by decide

theorem witness_RotationLaws : exec (.rotateLeft 1#256 1#32) State.reset = .next (valueDone State.reset 2#256) := by
  have h : rol 1#256 (rotAmount 1#32) = 2#256 := by decide
  simp only [exec, execRotateLeft, h]; rfl

theorem witness_ReservedOpsCompleteWithIllegalCommand :
    0xA ≤ (fullCommand 0xA#4).op.toNat ∧ Instr.reservedF ∈ [Instr.reservedA, .reservedB, .reservedC, .reservedD,
      .reservedE, .reservedF] := by decide

/-- Each of the three errors and a success is some instruction's, in some state. -/
theorem witness_ErrorCodesHaveExactlyTheirCauses :
    exec (.fromHex 1 [0x67#8]) State.reset = .next (errorDone State.reset 1#2) ∧
    exec (.getWord 0#256 8#32) State.reset = .next (errorDone State.reset 2#2) ∧
    exec .reservedA State.reset = .next (errorDone State.reset 3#2) :=
  ⟨rfl, rfl, rfl⟩

/-- A success in each kind of result, and an error. -/
theorem witness_CompletionWritesOnlyItsRegisters :
    (∃ t, exec (.getWord 1#256 0#32) marked = .next t ∧ t.rspErr = 0#2 ∧ (Instr.getWord 1#256 0#32).form = .fmtASW) ∧
    (∃ t, exec (.toHex 1#256) marked = .next t ∧ t.rspErr = 0#2 ∧ (Instr.toHex 1#256).form = .fmtATxt) ∧
    (∃ t, exec (.add 1#256 1#256) marked = .next t ∧ t.rspErr = 0#2 ∧ (Instr.add 1#256 1#256).form = .fmtAB) ∧
    ∃ t, exec .reservedA marked = .next t ∧ t.rspErr ≠ 0#2 :=
  ⟨⟨_, rfl, rfl, rfl⟩, ⟨_, rfl, rfl, rfl⟩, ⟨_, rfl, rfl, rfl⟩, ⟨_, rfl, by decide⟩⟩

/-- The same command in two states that differ. -/
theorem witness_ResponseDependsOnOperandsAlone :
    marked ≠ State.reset ∧ (∃ t, exec (.add 1#256 1#256) marked = .next t ∧ t.last = .wroteR) ∧
    (∃ t, exec (.getWord 1#256 0#32) marked = .next t ∧ t.last = .wroteW) ∧
    ∃ t, exec (.toHex 1#256) State.reset = .next t ∧ t.last = .wroteTxt :=
  ⟨by decide, ⟨_, rfl, rfl⟩, ⟨_, rfl, rfl⟩, ⟨_, rfl, rfl⟩⟩

theorem witness_ResetEdgeAbandonsAndUnwrites :
    (atAdd.withHost [.edge resetPins]).host = .edge resetPins :: [] ∧ resetPins.rst = true ∧
    (atAdd.withHost [.edge resetPins]).busy = true ∧ holding.offered ≠ none := ⟨rfl, rfl, rfl, by simp [holding]⟩

theorem witness_CommandsAreAcceptedOnlyWhenReady :
    State.reset.busy = false ∧ (presentPins (.negate 1#256)).rst = false ∧
    (presentPins (.negate 1#256)).cmdValid = true ∧ idlePins.rst = false ∧ idlePins.cmdValid = false ∧
    atAdd.busy = true := ⟨rfl, rfl, rfl, rfl, rfl, rfl⟩

theorem witness_StepRunsTheDecodedInstruction :
    atAdd.host = .edge idlePins :: [] ∧ idlePins.rst = false ∧ atAdd.busy = true ∧
    atAdd.pending = some { cmd := fullCommand 0x5#4, remaining := 1 } ∧ (atAdd.withHost []).host = [] ∧
    holds atAdd.offered idlePins ∧ holds holding.offered (presentPins (.negate 1#256)) ∧
    (atAdd.withHost []).offered = none ∧ decodeTableWord 8 0x5 = some (.add 0#256 0#256) :=
  ⟨rfl, rfl, rfl, rfl, rfl, by simp [holds, atAdd, State.atCompletionOf], fun c h => by cases h; rfl, rfl, by decide⟩

theorem holdsThrough_idle (n : Nat) : holdsThrough none (List.replicate n idlePins) := by
  induction n with
  | zero => trivial
  | succ n ih => exact ⟨by simp [holds], ih⟩

/-- A state with this host list: an idle core, a command, then as many edges without reset as its latency asks, in
which nothing is presented. -/
def startOf (c : Command) : State := State.reset.withHost
  (.edge { rst := false, cmdValid := true, cmd := c } ::
    ((List.replicate (Config.lat c.op c.txtLen.toNat) idlePins).map HostEvent.edge ++ []))

theorem witness_AcceptedCommandCompletesAfterItsLatency (c : Command) :
    ∃ (p : Pins) (ps : List Pins), p.cmd = c ∧
      (startOf c).busy = false ∧ p.rst = false ∧ p.cmdValid = true ∧ (∀ q ∈ ps, q.rst = false) ∧
      holds (startOf c).offered p ∧ holdsThrough none ps ∧
      (startOf c).host = .edge p :: (ps.map HostEvent.edge ++ []) ∧
      ps.length = Config.lat p.cmd.op p.cmd.txtLen.toNat :=
  ⟨{ rst := false, cmdValid := true, cmd := c }, List.replicate (Config.lat c.op c.txtLen.toNat) idlePins,
    rfl, rfl, rfl, rfl, fun q h => by rw [List.eq_of_mem_replicate h]; rfl,
    by simp [holds, startOf, State.withHost, State.reset], holdsThrough_idle _, rfl, by simp⟩

/-- And its first clause, at the accepting edge alone. -/
theorem witness_AcceptedCommandCompletesAfterItsLatency_first_edge (c : Command) :
    holdsThrough none [] ∧ (startOf c).host = .edge { rst := false, cmdValid := true, cmd := c } ::
      (([] : List Pins).map HostEvent.edge ++ (startOf c).host.tail) ∧
    ([] : List Pins).length < Config.lat c.op c.txtLen.toNat := ⟨trivial, rfl, lat_pos _ _⟩

theorem witness_ResponsesChangeOnlyAtCompletionOrReset : ∃ t, step atAdd = .next t ∧
    clockEdge idlePins (atAdd.withHost []) = .next t ∧ t.rspValid = true ∧ t.busy = false := ⟨_, rfl, rfl, rfl, rfl⟩

/-- An idle core; an edge before the completing one; the completing edge, where the issue was on offer before. -/
theorem witness_IssueHoldsTheCommandUntilAccepted :
    (State.reset.withHost [.issue (.negate 1#256)]).host = .issue (.negate 1#256) :: [] ∧
    (Instr.negate 1#256).wf = true ∧ State.reset.busy = false ∧ State.reset.offered = none ∧
    (∃ s : State, s.host = .issue (.negate 1#256) :: [] ∧ s.busy = true ∧ s.offered = none ∧
      s.pending = some { cmd := fullCommand 0x5#4, remaining := 2 }) ∧
    ∃ s : State, s.host = .issue (.negate 1#256) :: [] ∧ s.busy = true ∧
      s.offered = some (encode (.negate 1#256)) ∧ s.pending = some { cmd := fullCommand 0x5#4, remaining := 1 } :=
  ⟨rfl, rfl, rfl, rfl,
    ⟨{ atAdd with host := [.issue (.negate 1#256)], pending := some ⟨fullCommand 0x5#4, 2⟩ }, rfl, rfl, rfl, rfl⟩,
    { holding with host := [.issue (.negate 1#256)] }, rfl, rfl, rfl, rfl⟩

/-- A read of each kind that goes on: RSP_ERR, then RSP_R, after a value; RSP_R as a standing value. -/
theorem witness_HostReadsChangeNothingOfTheCore :
    (∃ t, step ((valueDone marked 7#256).withHost [.readResult .rspErr]) = .next t) ∧
    ∃ t, step (checked.withHost [.readStanding .rspR]) = .next t := ⟨⟨_, rfl⟩, ⟨_, rfl⟩⟩

/-- A standing read that goes on, and reads of RSP_ERR and of an unchecked result. -/
theorem witness_StandingReadsGoOnExactlyWhenAllowed :
    (checked.withHost [.readStanding .rspR]).host = .readStanding .rspR :: [] ∧
    (checked.withHost [.readStanding .rspR]).Safe ∧
    (marked.withHost [.readStanding .rspErr]).host = .readStanding .rspErr :: [] ∧
    marked.isWritten .rspErr = true ∧ marked.errChecked = false := ⟨rfl, ⟨_, rfl⟩, rfl, rfl, rfl⟩

theorem witness_ResultReadsGoOnExactlyWhenAllowed :
    (marked.withHost [.readResult .rspR]).host = .readResult .rspR :: [] := rfl

theorem witness_UnwrittenRegistersCannotBeRead : State.reset.isWritten .rspR = false ∧
    (State.reset.withHost [.readResult .rspR]).host = .readResult .rspR :: [] ∧
    (State.reset.withHost [.readStanding .rspR]).host = .readStanding .rspR :: [] := ⟨rfl, rfl, rfl⟩

theorem witness_ResultIsReadableAfterCompletion : ∃ t,
    exec (.add 1#256 1#256) (State.reset.withHost [.readResult .rspErr, .readResult .rspR]) = .next t ∧
    t.rspErr = 0#2 ∧ t.last.wrote .rspR = true := ⟨_, rfl, rfl, rfl⟩

theorem witness_OnlyTheHostCanStopTheMachine :
    step (State.reset.withHost [.readStanding .rspR]) = .fault (.readUnwritten .rspR) ∧
    (State.reset.withHost [.issue (.fromHex (2 ^ Config.tlenBits) [])]).host =
      .issue (.fromHex (2 ^ Config.tlenBits) []) :: [] ∧
    step holding = .fault .commandNotHeld ∧ step (holding.withHost [.await]) = .fault .commandNotHeld ∧
    step (holding.withHost [.edge idlePins]) = .fault .commandNotHeld ∧
    step (holding.withHost [.issue (.negate 2#256)]) = .fault .commandNotHeld :=
  ⟨rfl, rfl, hostEdge_of_breaksHold idlePins holding (by decide),
    hostEdge_of_breaksHold idlePins (holding.withHost [.await]) (by decide),
    hostEdge_of_breaksHold idlePins (holding.withHost []) (by decide),
    hostEdge_of_breaksHold (presentPins (.negate 2#256)) (holding.withHost [.issue (.negate 2#256)]) (by decide)⟩

/-- A state that meets the invariant with a command in progress, from which a step goes on. -/
theorem witness_EveryStepKeepsTheInvariant : atAdd.Inv ∧ ∃ t, step atAdd = .next t := by
  refine ⟨⟨rfl, ?_, by simp [atAdd, State.atCompletionOf, State.reset], rfl, ?_, ?_⟩, _, rfl⟩
  · intro p hp
    simp only [atAdd, State.atCompletionOf, Option.some.injEq] at hp
    subst hp
    exact ⟨Nat.le_refl 1, lat_pos _ _⟩
  · simp [atAdd, State.atCompletionOf, State.reset, Written.nothing]
  · simp [State.LastAgrees, atAdd, State.atCompletionOf, State.reset]

theorem witness_PseudoInstructionsGiveTheirResults :
    (ValueOperand.number 5).resolve [] = some 5#256 ∧
    (ValueOperand.name "x").resolve [("x", .value 5#256)] = some 5#256 := by decide

theorem witness_ListingLinesBindResultsAndErrors :
    (LineOp.add (.name "x") (.number 5)).resolve [("x", .value 5#256)] = some (.add 5#256 5#256) ∧
    (LineOp.fromHex a5500).resolve [] = some (.ofText a5500) ∧ (Instr.ofText a5500).wf = true ∧
    (LineOp.add (.name "x") (.number 5)).resolve [] = none ∧
    (∃ i, (LineOp.fromHex (List.replicate (2 ^ Config.tlenBits) 0x30#8)).resolve [] = some i ∧ i.wf = false) ∧
    (ValueOperand.number 5).resolve [] = some 5#256 ∧ (7#32 : Word).toNat ≤ 7 ∧ 7 < (8#32 : Word).toNat ∧
    [0x67#8].length ≤ Config.hexInMax ∧ ∃ c ∈ [0x67#8], isHexDigit c = false :=
  ⟨by decide, rfl, by rw [Instr.ofText, if_pos (le_hexInMax _ (by decide))]; exact test_wf_accepts_text, by decide,
    ⟨_, rfl, by simp [Instr.ofText, Instr.wf, tlenFits]⟩,
    by decide, by decide, by decide, le_hexInMax _ (by decide), 0x67#8, by decide, by decide⟩

/-- A text of a reserved length, which the length port can hold wherever R58 says one exists. -/
theorem witness_ListingLinesBindResultsAndErrors_reserved_length (h : Config.hexInMax < 2 ^ Config.tlenBits - 1) :
    ∃ t : List Byte, Config.hexInMax < t.length ∧ t.length < 2 ^ Config.tlenBits :=
  ⟨List.replicate (Config.hexInMax + 1) 0x30#8, by simp, by simp; omega⟩

end Sys2Proof.Tests
end

section
/-! PROOFS. The number of a value as the sum of its weighted words (R12, R13), and the constraints the open
parameters meet (R11, R134). -/

namespace Sys2Proof.Machine

/-- The recursion that gives a list of words its number is the weighted sum of R13. -/
theorem wordsVal_map_range (f : Nat → Word) (n : Nat) :
    wordsVal ((List.range n).map f) = (Finset.range n).sum fun i => (f i).toNat * 2 ^ (32 * i) := by
  induction n generalizing f with
  | zero => rfl
  | succ n ih =>
    have tail : 2 ^ 32 * wordsVal ((List.range n).map (f ∘ Nat.succ)) =
        (Finset.range n).sum fun i => (f (i + 1)).toNat * 2 ^ (32 * (i + 1)) := by
      rw [ih, Finset.mul_sum]
      refine Finset.sum_congr rfl fun i _ => ?_
      rw [two_pow_word_succ, Function.comp_apply, Nat.mul_comm, Nat.mul_assoc]
    rw [List.range_succ_eq_map, List.map_cons, List.map_map, wordsVal_cons, tail, Finset.sum_range_succ',
      Nat.add_comm, Nat.mul_zero, Nat.pow_zero, Nat.mul_one]

theorem toNat_eq_sum_word (v : U256) :
    v.toNat = (Finset.range 8).sum fun i => (word v i).toNat * 2 ^ (32 * i) := by
  rw [← wordsVal_map_range, ← words, wordsVal_words]

/-- Settles O1: the sum is the number of the value's word list, and the bits are those of each word's slice. -/
theorem valueIsWeightedSumOfWords : Obligations.ValueIsWeightedSumOfWords :=
  fun v => ⟨toNat_eq_sum_word v, fun i b _ hb => getLsbD_word v i b hb⟩

end Sys2Proof.Machine

namespace Sys2Proof

theorem lat_le_latMax (op : Opcode) (tlen : Nat) : Config.lat op tlen ≤ Config.latMax :=
  Nat.succ_le_succ (Nat.min_le_right _ _)

/-- Only from_hex (OP 0x2) has a latency that may depend on the text length (R134). -/
theorem lat_eq_of_ne_fromHex (op : Opcode) (tlen tlen' : Nat) (h : op ≠ 2#4) :
    Config.lat op tlen = Config.lat op tlen' := by
  simp only [Config.lat, if_neg h]

/-- Settles O2: each constraint holds for every value of the opaque constants the parameters are built from. -/
theorem openParametersMeetTheirConstraints : Obligations.OpenParametersMeetTheirConstraints :=
  ⟨le_hexInMax 72 (Nat.le_refl 72), lt_two_pow_tlenBits _ (Nat.le_refl _),
    fun op tlen => ⟨lat_pos op tlen, lat_le_latMax op tlen⟩, lat_eq_of_ne_fromHex⟩

end Sys2Proof
end

section
/-! PROOFS. The text the formatter writes: from 1 to 64 output characters, of which '0' is the first only where it
is the whole text (R27, R79, R80, R82). -/

namespace Sys2Proof.Machine

theorem isOutputChar_hexchar (d : Nat) (h : d < 16) : isOutputChar (hexchar d) = true :=
  List.any_eq_true.mpr ⟨d, List.mem_range.mpr h, beq_self_eq_true _⟩

theorem isOutputChar_of_mem_hex8 {w : Word} {c : Byte} (h : c ∈ hex8 w) : isOutputChar c = true := by
  obtain ⟨p, -, rfl⟩ := List.mem_map.mp h
  exact isOutputChar_hexchar _ (nibbleAt_lt w _)

/-- A word whose eight nibbles are 0 is 0. -/
theorem word_eq_zero_of_nibbles (w : Word) (h : ∀ j, j < 8 → nibbleAt w j = 0) : w = 0#32 := by
  have mod_eq_zero : ∀ n, n ≤ 8 → w.toNat % 16 ^ n = 0 := by
    intro n
    induction n with
    | zero => intro _; exact Nat.mod_one _
    | succ n ih =>
      intro hn
      have hd : w.toNat / 16 ^ n % 16 = 0 := by rw [← nibbleAt_eq]; exact h n hn
      rw [Nat.pow_succ, Nat.mod_mul, ih (by omega), hd, Nat.mul_zero]
  have := w.isLt
  apply BitVec.eq_of_toNat_eq
  rw [← Nat.mod_eq_of_lt this]
  exact mod_eq_zero 8 (Nat.le_refl 8)

/-- The characters of a non-zero word are not all '0', so some are left when the leading zeros go (R80). -/
theorem hexTrimmed_ne_nil {w : Word} (h : w ≠ 0#32) : hexTrimmed w ≠ [] := by
  intro hnil
  refine h (word_eq_zero_of_nibbles w fun j hj => ?_)
  have hmem : hexchar (nibbleAt w j) ∈ hex8 w :=
    List.mem_map.mpr ⟨7 - j, List.mem_range.mpr (by omega), by rw [show 7 - (7 - j) = j by omega]⟩
  have hzero := List.dropWhile_eq_nil_iff.mp hnil _ hmem
  exact (hexchar_eq_zeroChar _ (nibbleAt_lt w j)).mp (eq_of_beq hzero)

theorem head?_hexTrimmed_ne_zeroChar (w : Word) : (hexTrimmed w).head? ≠ some zeroChar := by
  intro h
  have hnot := List.head?_dropWhile_not (· == zeroChar) (hex8 w)
  rw [hexTrimmed] at h
  simp [h] at hnot

theorem length_hexTrimmed_le (w : Word) : (hexTrimmed w).length ≤ 8 :=
  length_hex8 w ▸ (List.dropWhile_sublist _).length_le

theorem length_hexLower (a : U256) (top : Nat) : (hexLower a top).length = 8 * top := by
  simp [hexLower, List.length_flatMap, length_hex8, Nat.mul_comm]

theorem topWord_eq_some {a : U256} {top : Nat} (h : topWord a = some top) : top < 8 ∧ word a top ≠ 0#32 :=
  ⟨by simpa using List.mem_of_find?_eq_some h, by simpa using List.find?_some h⟩

/-- The numeral is "0", or the top word without its leading zeros and the lower words in full (R79, R80). -/
theorem formatHex_cases (a : U256) : formatHex a = [zeroChar] ∨
    ∃ top, top < 8 ∧ word a top ≠ 0#32 ∧ formatHex a = hexTrimmed (word a top) ++ hexLower a top := by
  cases h : topWord a with
  | none => exact .inl (by simp only [formatHex, h])
  | some top =>
    obtain ⟨hlt, hne⟩ := topWord_eq_some h
    exact .inr ⟨top, hlt, hne, by simp only [formatHex, h]⟩

theorem length_formatHex_bounds (a : U256) : 1 ≤ (formatHex a).length ∧ (formatHex a).length ≤ 64 := by
  obtain h | ⟨top, hlt, hne, h⟩ := formatHex_cases a
  · simp [h]
  · have hpos := List.length_pos_of_ne_nil (hexTrimmed_ne_nil hne)
    have hle := length_hexTrimmed_le (word a top)
    rw [h, List.length_append, length_hexLower]
    omega

theorem all_isOutputChar_formatHex (a : U256) : (formatHex a).all isOutputChar = true := by
  obtain h | ⟨top, -, -, h⟩ := formatHex_cases a
  · rw [h]; decide
  · rw [h, List.all_append, Bool.and_eq_true, List.all_eq_true, List.all_eq_true]
    refine ⟨fun c hc => isOutputChar_of_mem_hex8 ((List.dropWhile_sublist _).mem hc), fun c hc => ?_⟩
    obtain ⟨i, -, hi⟩ := List.mem_flatMap.mp hc
    exact isOutputChar_of_mem_hex8 hi

theorem formatHex_eq_zeroChar_of_head? (a : U256) (h0 : (formatHex a).head? = some zeroChar) :
    formatHex a = [zeroChar] := by
  obtain h | ⟨top, -, hne, h⟩ := formatHex_cases a
  · exact h
  · rw [h, List.head?_append_of_ne_nil _ (hexTrimmed_ne_nil hne)] at h0
    exact absurd h0 (head?_hexTrimmed_ne_zeroChar _)

/-- The text a successful to_hex leaves is of the form R27 asks. -/
theorem textWellFormed_succeedTxt_formatHex (s : State) (a : U256) :
    (s.succeedTxt (formatHex a)).TextWellFormed :=
  have ⟨hpos, hle⟩ := length_formatHex_bounds a
  ⟨formatHex a, hpos, hle, all_isOutputChar_formatHex a, formatHex_eq_zeroChar_of_head? a, rfl, rfl⟩

end Sys2Proof.Machine
end

section
/-! PROOFS. The host's read of a result, and that one step keeps the invariant: each update of the state does, and a
step is made of them (R27, R29, R30, R32, R36). -/

namespace Sys2Proof.Machine

/-- When a read of the last command's result goes on, and what it then leaves (R123, R130 to R132). -/
theorem hostReadResult_eq_next_iff (r : RspReg) (s t : State) : hostReadResult r s = .next t ↔
    s.busy = false ∧ s.isWritten r = true ∧ s.last.wrote r = true ∧ (r ≠ .rspErr → s.errChecked = true) ∧
      t = s.deliver r := by
  unfold hostReadResult
  split_ifs with hb hw hl he
  · simp [hb]
  · simp_all
  · simp_all
  · simp_all
  · have hr : r ≠ .rspErr → s.errChecked = true := by simpa using he
    simp_all [eq_comm (a := t)]

/-- When a standing read goes on, and what it then leaves (R33, R130, R131). -/
theorem hostReadStanding_eq_next_iff (r : RspReg) (s t : State) : hostReadStanding r s = .next t ↔
    s.isWritten r = true ∧ (r ≠ .rspErr → s.errChecked = true) ∧ t = s.deliver r := by
  obtain ⟨hw, he, h⟩ | ⟨hw, h⟩ | ⟨-, hr, he, h⟩ := hostReadStanding_cases r s
  · exact ⟨fun e => ⟨hw, he, by cases h ▸ e; rfl⟩, fun ⟨_, _, ht⟩ => ht ▸ h⟩
  · simp [h, hw]
  · simp [h, hr, he]

theorem isWritten_of_written_nothing {s : State} (h : s.written = Written.nothing) (r : RspReg) :
    s.isWritten r = false := by
  cases r <;> simp [State.isWritten, h, Written.nothing]

theorem ErrKind.code_ne_zero (k : ErrKind) : k.code ≠ 0#2 := by
  cases k <;> decide

namespace State.Inv

variable {s : State}

theorem withHost (hs : s.Inv) (h : List HostEvent) : (s.withHost h).Inv := { hs with }

theorem noteOffer (hs : s.Inv) (p : Pins) : (s.noteOffer p).Inv := { hs with }

theorem quietEdge (hs : s.Inv) : s.quietEdge.Inv :=
  { hs with valid_after_completion := nofun }

theorem waitEdge (hs : s.Inv) {q : Pending} (hq : s.pending = some q) (hlast : 1 < q.remaining) :
    (s.waitEdge q).Inv :=
  { hs with
    busy_iff_pending := by simp [hs.busy_iff_pending, hq]
    remaining_bounds := by
      rintro _ ⟨rfl⟩
      have ⟨_, hle⟩ := hs.remaining_bounds q hq
      exact ⟨Nat.le_sub_one_of_lt hlast, (Nat.sub_le _ _).trans hle⟩
    valid_after_completion := nofun }

theorem accept (hs : s.Inv) (c : Command) : (s.accept c).Inv :=
  { hs with
    busy_iff_pending := rfl
    remaining_bounds := by
      rintro _ ⟨rfl⟩
      exact ⟨lat_pos _ _, Nat.le_refl _⟩
    valid_after_completion := nofun }

/-- The registers a reset leaves unwritten hold no text, and no command has completed since. -/
theorem resetEdge (s : State) : s.resetEdge.Inv where
  busy_iff_pending := rfl
  remaining_bounds := by simp
  valid_after_completion := nofun
  text_written_together := rfl
  text_well_formed := nofun
  last_agrees := ⟨rfl, rfl⟩

theorem succeedR (hs : s.Inv) (v : U256) : (s.succeedR v).Inv :=
  { hs with
    busy_iff_pending := rfl
    remaining_bounds := by simp
    valid_after_completion := fun _ => ⟨rfl, rfl⟩
    last_agrees := ⟨rfl, rfl, rfl⟩ }

theorem succeedW (hs : s.Inv) (w : Word) : (s.succeedW w).Inv :=
  { hs with
    busy_iff_pending := rfl
    remaining_bounds := by simp
    valid_after_completion := fun _ => ⟨rfl, rfl⟩
    last_agrees := ⟨rfl, rfl, rfl⟩ }

theorem succeedTxt_formatHex (s : State) (a : U256) : (s.succeedTxt (formatHex a)).Inv where
  busy_iff_pending := rfl
  remaining_bounds := by simp
  valid_after_completion := fun _ => ⟨rfl, rfl⟩
  text_written_together := rfl
  text_well_formed := fun _ => textWellFormed_succeedTxt_formatHex s a
  last_agrees := ⟨rfl, rfl, rfl⟩

theorem raise (hs : s.Inv) (k : ErrKind) : (s.raise k).Inv :=
  { hs with
    busy_iff_pending := rfl
    remaining_bounds := by simp
    valid_after_completion := fun _ => ⟨rfl, rfl⟩
    last_agrees := ⟨rfl, k.code_ne_zero⟩ }

/-- A read of a written register: some command has completed since the reset, so RSP_ERR may count as read. -/
theorem deliver (hs : s.Inv) {r : RspReg} (hw : s.isWritten r = true) : (s.deliver r).Inv :=
  { hs with
    last_agrees := by
      have hl := hs.last_agrees
      cases h : s.last with
      | noneYet =>
        simp only [State.LastAgrees, h] at hl
        simp [isWritten_of_written_nothing hl.1] at hw
      | errored | wroteR | wroteW | wroteTxt =>
        simp only [State.LastAgrees, h] at hl
        simpa [State.LastAgrees, h] using hl }

variable {t : State}

theorem of_exec (hs : s.Inv) {i : Instr} (h : exec i s = .next t) : t.Inv := by
  obtain ⟨v, e⟩ | ⟨w, e⟩ | ⟨a, e⟩ | ⟨k, e⟩ := exec_cases i s <;> cases e ▸ h
  · exact hs.succeedR v
  · exact hs.succeedW w
  · exact succeedTxt_formatHex s a
  · exact hs.raise k

theorem of_clockEdge (hs : s.Inv) {p : Pins} (h : clockEdge p s = .next t) : t.Inv := by
  obtain ⟨-, e⟩ | ⟨-, -, q, hq, hlast, e⟩ | ⟨-, -, q, -, -, e⟩ | ⟨-, -, -, e⟩ | ⟨-, -, -, e⟩ :=
    clockEdge_cases p s <;> rw [e] at h
  · cases h; exact resetEdge s
  · cases h; exact hs.waitEdge hq hlast
  · exact hs.of_exec h
  · cases h; exact hs.accept p.cmd
  · cases h; exact hs.quietEdge

theorem of_hostEdge (hs : s.Inv) {p : Pins} (h : hostEdge p s = .next t) : t.Inv := by
  obtain ⟨-, e⟩ | ⟨-, e⟩ := hostEdge_cases p s <;> rw [e] at h
  · exact (hs.noteOffer p).of_clockEdge h
  · cases h

theorem of_step (hs : s.Inv) (h : step s = .next t) : t.Inv := by
  obtain ⟨p, l, e, -⟩ | ⟨l, e⟩ | ⟨r, l, -, e⟩ | ⟨r, l, -, e⟩ | ⟨i, l, -, -, e⟩ := step_cases s <;> rw [e] at h
  · exact (hs.withHost l).of_hostEdge h
  · cases h; exact hs.withHost l
  · obtain ⟨-, hw, -, -, rfl⟩ := (hostReadResult_eq_next_iff r _ t).mp h
    exact (hs.withHost l).deliver hw
  · obtain ⟨hw, -, rfl⟩ := (hostReadStanding_eq_next_iff r _ t).mp h
    exact (hs.withHost l).deliver hw
  · cases h

end State.Inv

/-- Settles O57: every update a step is made of keeps the invariant, and the text a to_hex writes is the formatter's. -/
theorem everyStepKeepsTheInvariant : Obligations.EveryStepKeepsTheInvariant :=
  fun _ _ hs h => hs.of_step h

/-- Settles O56: the reset state is what a reset edge makes of it. -/
theorem resetMeetsTheInvariant : Obligations.ResetMeetsTheInvariant :=
  State.Inv.resetEdge State.reset

end Sys2Proof.Machine
end

section
/-! PROOFS. What an instruction's completion writes is fixed by the instruction, and the register by its operand form
(R32, R34, R54). -/

namespace Sys2Proof.Machine

open Sys2Proof.Claims

/-- The completion of an instruction: a value, a word, a text or an error, which one and what does not depend on
the state, and each but the error for the form that has that result register (R32, R34, R54, R119). -/
theorem exec_cases_of_form (i : Instr) :
    (i.form ≠ .reserved ∧ i.form ≠ .fmtASW ∧ i.form ≠ .fmtATxt ∧ ∃ v, ∀ s, exec i s = .next (s.succeedR v)) ∨
    (i.form = .fmtASW ∧ ∃ w, ∀ s, exec i s = .next (s.succeedW w)) ∨
    (i.form = .fmtATxt ∧ ∃ a, ∀ s, exec i s = .next (s.succeedTxt (formatHex a))) ∨
    (∃ k, ∀ s, exec i s = .next (s.raise k)) := by
  cases i with
  | fromHex tlen t =>
    by_cases hlen : Config.hexInMax < tlen
    · exact .inr (.inr (.inr ⟨.illegalCommand, fun s => by simp [exec, execFromHex, hlen]⟩))
    cases hdigits : t.all isHexDigit with
    | true => exact .inl ⟨nofun, nofun, nofun, parseHex t, fun s => by simp [exec, execFromHex, hlen, hdigits]⟩
    | false => exact .inr (.inr (.inr ⟨.invalidDigit, fun s => by simp [exec, execFromHex, hlen, hdigits]⟩))
  | toHex a => exact .inr (.inr (.inl ⟨rfl, a, fun _ => rfl⟩))
  | getWord a index =>
    cases hindex : indexInRange index with
    | true => exact .inr (.inl ⟨rfl, word a (indexSelect index), fun s => by simp [exec, execGetWord, hindex]⟩)
    | false => exact .inr (.inr (.inr ⟨.indexOutOfRange, fun s => by simp [exec, execGetWord, hindex]⟩))
  | fromU32 | fromWords | add | negate | sub | rotateLeft | rotateRight =>
    exact .inl ⟨nofun, nofun, nofun, _, fun _ => rfl⟩
  | reservedA | reservedB | reservedC | reservedD | reservedE | reservedF =>
    exact .inr (.inr (.inr ⟨.illegalCommand, fun _ => rfl⟩))

theorem exec_eq_next (i : Instr) (s : State) : ∃ t, exec i s = .next t := by
  obtain ⟨_, e⟩ | ⟨_, e⟩ | ⟨_, e⟩ | ⟨_, e⟩ := exec_cases i s <;> exact ⟨_, e⟩

/-! The model's completions are the states the statements write out field by field. -/

theorem succeedR_eq_valueDone (s : State) (v : U256) : s.succeedR v = valueDone s v := rfl

theorem succeedW_eq_wordDone (s : State) (w : Word) : s.succeedW w = wordDone s w := rfl

theorem succeedTxt_eq_textDone (s : State) (t : List Byte) :
    s.succeedTxt t = textDone s (packBytes 512 t) (BitVec.ofNat 7 t.length) := rfl

theorem raise_eq_errorDone (s : State) (k : ErrKind) : s.raise k = errorDone s k.code := rfl

/-- Settles O41: there is a next state, and `exec_completes` says what every completion leaves in it. -/
theorem everyInstructionCompletes : Obligations.EveryInstructionCompletes := by
  intro i s
  obtain ⟨t, h⟩ := exec_eq_next i s
  obtain ⟨hbusy, hpending, hvalid, herr, -⟩ := exec_completes i s t h
  exact ⟨t, h, hbusy, hpending, herr, by simp [State.outputs, hvalid], by simp [State.outputs, hbusy]⟩

/-- Settles O42, by the four completions: each is the written-out state of its form's result register. -/
theorem completionWritesOnlyItsRegisters : Obligations.CompletionWritesOnlyItsRegisters := by
  intro i s t h
  obtain ⟨hres, hword, htext, v, e⟩ | ⟨hform, w, e⟩ | ⟨hform, a, e⟩ | ⟨k, e⟩ := exec_cases_of_form i <;>
    cases e s ▸ h
  · exact ⟨fun he => absurd rfl he, fun _ => ⟨hres, fun hf => absurd hf hword, fun hf => absurd hf htext,
      fun _ _ => succeedR_eq_valueDone s v⟩⟩
  · refine ⟨fun he => absurd rfl he, fun _ => ⟨?_, fun _ => succeedW_eq_wordDone s w, ?_, ?_⟩⟩ <;> simp [hform]
  · refine ⟨fun he => absurd rfl he, fun _ => ⟨?_, ?_, fun _ => succeedTxt_eq_textDone s _, ?_⟩⟩ <;> simp [hform]
  · exact ⟨fun _ => raise_eq_errorDone s k, fun he => absurd he k.code_ne_zero⟩

/-- Settles O43, by the four completions: what each writes is the same in both states. -/
theorem responseDependsOnOperandsAlone : Obligations.ResponseDependsOnOperandsAlone := by
  intro i s s' t t' h h'
  obtain ⟨-, -, -, v, e⟩ | ⟨-, w, e⟩ | ⟨-, a, e⟩ | ⟨k, e⟩ := exec_cases_of_form i <;>
    cases e s ▸ h <;> cases e s' ▸ h' <;> simp

end Sys2Proof.Machine
end

section
/-! PROOFS. The decoder reads the ports of the OP's operand form alone (R25, R54, R77). -/

namespace Sys2Proof

/-- The rows of the table of R53. -/
theorem mem_opcodes (op : Opcode) : op ∈ [0x0#4, 0x1#4, 0x2#4, 0x3#4, 0x4#4, 0x5#4, 0x6#4, 0x7#4, 0x8#4, 0x9#4,
    0xA#4, 0xB#4, 0xC#4, 0xD#4, 0xE#4, 0xF#4] := by
  revert op; decide

theorem decodeText_congr {c d : Command} (hlen : c.txtLen = d.txtLen)
    (hbytes : c.txtLen.toNat ≤ Config.hexInMax → ∀ p, p < c.txtLen.toNat → byteAt c.txtIn p = byteAt d.txtIn p) :
    decodeText c = decodeText d := by
  simp only [decodeText, ← hlen]
  split
  · next hle => rw [firstBytes_congr _ _ _ (hbytes hle)]
  · rfl

/-- Settles O7, by the rows of the table: the operands of each row's instruction are those its form reads. -/
theorem unreadPortsAreIgnored : Obligations.UnreadPortsAreIgnored := by
  rintro ⟨op, opa, opb, ops, txtLen, txtIn⟩ ⟨op', opa', opb', ops', txtLen', txtIn'⟩ hop hA hB hS hT
  cases (hop : op = op')
  have hrow := mem_opcodes op
  simp only [List.mem_cons, List.not_mem_nil, or_false] at hrow
  obtain rfl | rfl | rfl | rfl | rfl | rfl | rfl | rfl | rfl | rfl | rfl | rfl | rfl | rfl | rfl | rfl := hrow
  · exact congrArg Instr.fromU32 (hS rfl)
  · exact congrArg Instr.fromWords (hA rfl)
  · exact decodeText_congr (hT rfl).1 (hT rfl).2
  · exact congrArg Instr.toHex (hA rfl)
  · exact congrArg₂ Instr.getWord (hA rfl) (hS rfl)
  · exact congrArg₂ Instr.add (hA rfl) (hB rfl)
  · exact congrArg Instr.negate (hA rfl)
  · exact congrArg₂ Instr.sub (hA rfl) (hB rfl)
  · exact congrArg₂ Instr.rotateLeft (hA rfl) (hS rfl)
  · exact congrArg₂ Instr.rotateRight (hA rfl) (hS rfl)
  all_goals rfl

end Sys2Proof
end

section
/-! PROOFS. What a clock edge does, case by case, and the step at which the host drives it (R29, R30, R129). -/

namespace Sys2Proof.Machine

open Sys2Proof.Claims

section Edges

variable {s : State} {p : Pins} {q : Pending}

theorem clockEdge_of_busy (hr : p.rst = false) (hb : s.busy = true) : clockEdge p s = busyEdge s := by
  simp [clockEdge, hr, hb]

theorem clockEdge_of_presented (hr : p.rst = false) (hb : s.busy = false) (hv : p.cmdValid = true) :
    clockEdge p s = .next (s.accept p.cmd) := by
  simp [clockEdge, hr, hb, hv]

theorem clockEdge_of_not_presented (hr : p.rst = false) (hb : s.busy = false) (hv : p.cmdValid = false) :
    clockEdge p s = .next s.quietEdge := by
  simp [clockEdge, hr, hb, hv]

theorem busyEdge_of_waiting (hp : s.pending = some q) (hq : 1 < q.remaining) :
    busyEdge s = .next (s.waitEdge q) := by
  simp [busyEdge, hp, hq]

theorem busyEdge_of_last (hp : s.pending = some q) (hq : q.remaining ≤ 1) :
    busyEdge s = exec (decode q.cmd) s := by
  simp [busyEdge, hp, hq]

/-- The host's obligation in the words of the statements: an edge without reset breaks it exactly where a command is
on offer and another one, or none, is presented (R129). -/
theorem breaksHold_iff_presented (s : State) (p : Pins) :
    s.breaksHold p = true ↔ ∃ c, s.offered = some c ∧ p.rst = false ∧ presented p ≠ some c := by
  simp [breaksHold_iff, presented]

theorem breaksHold_of_holds (h : holds s.offered p) : s.breaksHold p = false := by
  rw [← Bool.not_eq_true, breaksHold_iff_presented]
  rintro ⟨c, hc, -, hne⟩
  exact hne (h c hc)

/-- At an edge while a command is in progress, what is presented is what has to be held after it (R129). -/
theorem noteOffer_of_busy (hb : s.busy = true) : s.noteOffer p = { s with offered := presented p } := by
  simp [State.noteOffer, presented, hb]

/-- At an edge without reset of an idle core nothing has to be held after it (R129). -/
theorem noteOffer_of_idle (hr : p.rst = false) (hb : s.busy = false) : s.noteOffer p = { s with offered := none } := by
  simp [State.noteOffer, hr, hb]

/-- An edge of the host's at which it holds what it has to, while a command is in progress. -/
theorem hostEdge_of_busy (hr : p.rst = false) (hb : s.busy = true) (hold : holds s.offered p) :
    hostEdge p s = busyEdge { s with offered := presented p } := by
  rw [hostEdge_of_held _ _ (breaksHold_of_holds hold), noteOffer_of_busy hb]
  exact clockEdge_of_busy hr hb

/-- An edge of the host's at which an idle core takes the command it holds. -/
theorem hostEdge_of_presented (hr : p.rst = false) (hb : s.busy = false) (hv : p.cmdValid = true)
    (hold : holds s.offered p) : hostEdge p s = .next (State.accept { s with offered := none } p.cmd) := by
  rw [hostEdge_of_held _ _ (breaksHold_of_holds hold), noteOffer_of_idle hr hb]
  exact clockEdge_of_presented hr hb hv

end Edges

section Steps

variable {s : State} {rest : List HostEvent}

theorem step_of_no_event (hh : s.host = []) : step s = hostEdge idlePins s := by
  simp [step, nextStep, hh]

theorem step_of_event {ev : HostEvent} (hh : s.host = ev :: rest) : step s = hostEvent ev rest s := by
  simp [step, nextStep, hh]

theorem step_of_edge {p : Pins} (hh : s.host = .edge p :: rest) : step s = hostEdge p (s.withHost rest) :=
  step_of_event hh

/-- The completing edge of the command in progress, driven by the host (R29, R30). -/
theorem step_of_last_edge {p : Pins} {q : Pending} (hh : s.host = .edge p :: rest) (hr : p.rst = false)
    (hb : s.busy = true) (hp : s.pending = some q) (hq : q.remaining ≤ 1) (hold : holds s.offered p) :
    step s = exec (decode q.cmd) { s with host := rest, offered := presented p } := by
  rw [step_of_edge hh]
  exact (hostEdge_of_busy (s := s.withHost rest) hr hb hold).trans (busyEdge_of_last hp hq)

/-- An edge before the completing one, driven by the host (R30). -/
theorem step_of_waiting_edge {p : Pins} {q : Pending} (hh : s.host = .edge p :: rest) (hr : p.rst = false)
    (hb : s.busy = true) (hp : s.pending = some q) (hq : 1 < q.remaining) (hold : holds s.offered p) :
    step s = .next (State.waitEdge { s with host := rest, offered := presented p } q) := by
  rw [step_of_edge hh]
  exact (hostEdge_of_busy (s := s.withHost rest) hr hb hold).trans (busyEdge_of_waiting hp hq)

end Steps

/-- Settles O46, by the equation of each kind of edge. -/
theorem commandsAreAcceptedOnlyWhenReady : Obligations.CommandsAreAcceptedOnlyWhenReady := fun s p hr =>
  ⟨by simp [State.outputs], fun hb hv => clockEdge_of_presented hr hb hv,
    fun hb hv => clockEdge_of_not_presented hr hb hv,
    fun hb p' hr' => (clockEdge_of_busy hr' hb).trans (clockEdge_of_busy hr hb).symm⟩

/-- Settles O44, field by field of the reset state. -/
theorem resetStateIsIdleAndUnwritten : Obligations.ResetStateIsIdleAndUnwritten :=
  ⟨rfl, rfl, rfl, rfl, isWritten_of_written_nothing rfl, rfl⟩

theorem holds_none (p : Pins) : holds none p := by simp [holds]

/-- Settles O47: the host's edge, its idle edge and the edge placed before a table word are each the completing edge. -/
theorem stepRunsTheDecodedInstruction : Obligations.StepRunsTheDecodedInstruction := by
  refine ⟨fun s p rest q hh hr hb hp hq hold => step_of_last_edge hh hr hb hp hq hold,
    fun s q hh hb hp hq ho => ?_, fun s nbits w i hw => ?_⟩
  · have same : { s with offered := presented idlePins } = s := congrArg (fun o => { s with offered := o }) ho.symm
    rw [step_of_no_event hh, hostEdge_of_busy rfl hb (ho ▸ holds_none _), same, busyEdge_of_last hp hq]
  · obtain ⟨-, rfl⟩ : ¬ nbits < 4 ∧ decode (Command.ofTableWord w) = i := by simpa [decodeTableWord] using hw
    exact step_of_last_edge (p := idlePins) (s := s.withFetchWord nbits w) rfl rfl rfl rfl (Nat.le_refl 1)
      (holds_none _)

end Sys2Proof.Machine
end

section
/-! PROOFS. A command in progress over many edges, and which steps change a response register (R30, R31, R135). -/

namespace Sys2Proof.Machine

open Sys2Proof.Claims

/-- A command is in progress and the host's next actions are these edges, without reset, at which it holds whatever it
presents: the states of R30 and R135 from the accepting edge on. -/
structure State.BusyThrough (s : State) (q : Pending) (ps : List Pins) (rest : List HostEvent) : Prop where
  busy : s.busy = true
  rspValid : s.rspValid = false
  pending : s.pending = some q
  host : s.host = ps.map HostEvent.edge ++ rest
  no_reset : ∀ p ∈ ps, p.rst = false
  held : holdsThrough s.offered ps

/-- The state after some of these edges, as the statements write it: the command has `remaining` edges left, the host
the actions `rest`, and no register but BUSY and rsp_valid differs. -/
def State.inProgress (s : State) (c : Command) (remaining : Nat) (ps : List Pins) (rest : List HostEvent) : State :=
  { s with
    busy := true, rspValid := false, host := rest, offered := offerAfter s.offered ps
    pending := some { cmd := c, remaining := remaining } }

namespace State.BusyThrough

variable {s : State} {q : Pending} {p : Pins} {ps : List Pins} {rest : List HostEvent}

theorem inProgress_eq {ps' : List Pins} {rest' : List HostEvent} (h : s.BusyThrough q ps rest) :
    s.inProgress q.cmd q.remaining ps' rest' = { s with host := rest', offered := offerAfter s.offered ps' } := by
  simp only [State.inProgress, ← h.busy, ← h.rspValid, ← h.pending]

theorem step_last (h : s.BusyThrough q (p :: ps) rest) (hq : q.remaining ≤ 1) :
    step s = exec (decode q.cmd) (s.inProgress q.cmd q.remaining [p] (ps.map HostEvent.edge ++ rest)) := by
  rw [h.inProgress_eq]
  exact step_of_last_edge h.host (h.no_reset p List.mem_cons_self) h.busy h.pending hq h.held.1

theorem step_waiting (h : s.BusyThrough q (p :: ps) rest) (hq : 1 < q.remaining) :
    step s = .next (s.inProgress q.cmd (q.remaining - 1) [p] (ps.map HostEvent.edge ++ rest)) := by
  rw [step_of_waiting_edge h.host (h.no_reset p List.mem_cons_self) h.busy h.pending hq h.held.1]
  simp only [State.waitEdge, State.inProgress, h.busy]
  rfl

theorem of_waiting (h : s.BusyThrough q (p :: ps) rest) (n : Nat) :
    (s.inProgress q.cmd n [p] (ps.map HostEvent.edge ++ rest)).BusyThrough { q with remaining := n } ps rest where
  busy := rfl
  rspValid := rfl
  pending := rfl
  host := rfl
  no_reset := fun p' hp' => h.no_reset p' (List.mem_cons_of_mem p hp')
  held := h.held.2

/-- Fewer edges than are left: the command stays in progress, and no response register changes (R30). -/
theorem run_of_lt (h : s.BusyThrough q ps rest) (hlt : ps.length < q.remaining) :
    Sys2Proof.core.run ps.length s = .next (s.inProgress q.cmd (q.remaining - ps.length) ps rest) := by
  induction ps generalizing s q with
  | nil =>
    have same : { s with host := rest } = s := congrArg (fun l => { s with host := l }) h.host.symm
    rw [List.length_nil, core_run_zero, Nat.sub_zero, h.inProgress_eq]
    exact congrArg _ same.symm
  | cons p ps ih =>
    rw [List.length_cons] at hlt ⊢
    rw [core_run_next _ _ _ (h.step_waiting (by omega)), ih (h.of_waiting _) (Nat.lt_sub_of_add_lt hlt),
      Nat.add_comm, ← Nat.sub_sub]
    rfl

/-- As many edges as are left: the last of them completes the command (R30). -/
theorem run_of_eq (h : s.BusyThrough q ps rest) (hpos : 1 ≤ q.remaining) (heq : ps.length = q.remaining) :
    Sys2Proof.core.run ps.length s = exec (decode q.cmd) (s.inProgress q.cmd 1 ps rest) := by
  induction ps generalizing s q with
  | nil => simp only [List.length_nil] at heq; omega
  | cons p ps ih =>
    rw [List.length_cons] at heq ⊢
    cases ps with
    | nil =>
      have last := h.step_last (Nat.le_of_eq heq.symm)
      rw [← heq] at last
      exact (core_run_one s).trans last
    | cons p' ps =>
      rw [List.length_cons] at heq
      rw [core_run_next _ _ _ (h.step_waiting (by omega)),
        ih (h.of_waiting _) (Nat.le_sub_one_of_lt (by omega)) (Nat.eq_sub_of_add_eq heq)]
      rfl

end State.BusyThrough

/-- Settles O48: after the accepting edge the command is in progress with LAT(op) edges left, and the two run lemmas say
what the following edges do. -/
theorem acceptedCommandCompletesAfterItsLatency : Obligations.AcceptedCommandCompletesAfterItsLatency := by
  intro s p ps rest hb hr hv hrs hold hthrough hh
  let u := State.accept { s with host := ps.map HostEvent.edge ++ rest, offered := none } p.cmd
  have accepting : step s = .next u := by
    rw [step_of_edge hh]
    exact hostEdge_of_presented (s := s.withHost _) hr hb hv hold
  have hu : u.BusyThrough { cmd := p.cmd, remaining := Config.lat p.cmd.op p.cmd.txtLen.toNat } ps rest :=
    ⟨rfl, rfl, rfl, rfl, hrs, hthrough⟩
  rw [core_run_next _ _ _ accepting]
  exact ⟨hu.run_of_lt, hu.run_of_eq (lat_pos _ _)⟩

/-- What a clock edge does to the response registers: a reset unwrites them, a command completes, or they stay
(R31, R124). -/
theorem clockEdge_response_cases {s t : State} {p : Pins} (h : clockEdge p s = .next t) :
    (p.rst = true ∧ t.written = Written.nothing) ∨
    (∃ q, s.busy = true ∧ s.pending = some q ∧ q.remaining ≤ 1 ∧ exec (decode q.cmd) s = .next t) ∨
    sameResponse s t := by
  obtain ⟨hr, e⟩ | ⟨-, -, q, -, -, e⟩ | ⟨-, hb, q, hp, hq, e⟩ | ⟨-, -, -, e⟩ | ⟨-, -, -, e⟩ :=
    clockEdge_cases p s <;> rw [e] at h
  · cases h; exact .inl ⟨hr, rfl⟩
  · cases h; exact .inr (.inr ⟨rfl, rfl, rfl, rfl, rfl, rfl⟩)
  · exact .inr (.inl ⟨q, hb, hp, hq, h⟩)
  · cases h; exact .inr (.inr ⟨rfl, rfl, rfl, rfl, rfl, rfl⟩)
  · cases h; exact .inr (.inr ⟨rfl, rfl, rfl, rfl, rfl, rfl⟩)

/-- The same of a step; one that is no clock edge leaves the response registers as they are (R31, R44, R124). -/
theorem step_response_cases {s t : State} (h : step s = .next t) :
    (∃ p rest, s.host = .edge p :: rest ∧ p.rst = true ∧ t.written = Written.nothing) ∨
    (∃ q, s.busy = true ∧ s.pending = some q ∧ q.remaining ≤ 1 ∧
      exec (decode q.cmd) { s with host := t.host, offered := t.offered } = .next t) ∨
    sameResponse s t := by
  obtain ⟨p, l, e, hreset⟩ | ⟨l, e⟩ | ⟨r, l, -, e⟩ | ⟨r, l, -, e⟩ | ⟨i, l, -, -, e⟩ := step_cases s <;> rw [e] at h
  · obtain ⟨-, e⟩ | ⟨-, e⟩ := hostEdge_cases p (s.withHost l) <;> rw [e] at h
    · obtain ⟨hr, hw⟩ | ⟨q, hb, hp, hq, he⟩ | hsame := clockEdge_response_cases h
      · exact .inl ⟨p, l, hreset hr, hr, hw⟩
      · obtain ⟨-, -, -, -, -, hhost, -, hoffered⟩ := exec_completes _ _ t he
        exact .inr (.inl ⟨q, hb, hp, hq, by rw [hhost, hoffered]; exact he⟩)
      · exact .inr (.inr hsame)
    · cases h
  · cases h; exact .inr (.inr ⟨rfl, rfl, rfl, rfl, rfl, rfl⟩)
  · obtain ⟨-, -, -, -, rfl⟩ := (hostReadResult_eq_next_iff r _ t).mp h
    exact .inr (.inr ⟨rfl, rfl, rfl, rfl, rfl, rfl⟩)
  · obtain ⟨-, -, rfl⟩ := (hostReadStanding_eq_next_iff r _ t).mp h
    exact .inr (.inr ⟨rfl, rfl, rfl, rfl, rfl, rfl⟩)
  · cases h

/-- Only a completing edge leaves rsp_valid 1 (R30, R31). -/
theorem clockEdge_rspValid {s t : State} {p : Pins} (h : clockEdge p s = .next t) (hv : t.rspValid = true) :
    p.rst = false ∧ s.busy = true ∧ ∃ q, s.pending = some q ∧ q.remaining ≤ 1 := by
  obtain ⟨-, e⟩ | ⟨-, -, q, -, -, e⟩ | ⟨hr, hb, q, hp, hq, -⟩ | ⟨-, -, -, e⟩ | ⟨-, -, -, e⟩ := clockEdge_cases p s
  case inr.inr.inl => exact ⟨hr, hb, q, hp, hq⟩
  all_goals
    rw [e] at h
    cases h
    cases hv

/-- Settles O49, by what a step does to the responses and the marks every completion leaves. -/
theorem responsesChangeOnlyAtCompletionOrReset : Obligations.ResponsesChangeOnlyAtCompletionOrReset := by
  refine ⟨fun s t h => ?_, fun _ _ _ h hv => clockEdge_rspValid h hv⟩
  obtain ⟨p, rest, hh, hr, hw⟩ | ⟨q, hb, hp, hq, he⟩ | hsame := step_response_cases h
  · exact .inr (.inr ⟨p, rest, hh, hr, isWritten_of_written_nothing hw⟩)
  · obtain ⟨hbusy, -, hvalid, -⟩ := exec_completes _ _ t he
    exact .inr (.inl ⟨q, hb, hp, hq, hbusy, hvalid, he⟩)
  · exact .inl hsame

end Sys2Proof.Machine
end

section
/-! PROOFS. What the host can read, and that only the host can stop the machine (R33, R123, R129 to R131). -/

namespace Sys2Proof.Machine

open Sys2Proof.Claims

section

variable {s : State} {rest : List HostEvent} {r : RspReg}

theorem step_of_readResult (hh : s.host = .readResult r :: rest) : step s = hostReadResult r (s.withHost rest) :=
  step_of_event hh

theorem step_of_readStanding (hh : s.host = .readStanding r :: rest) :
    step s = hostReadStanding r (s.withHost rest) :=
  step_of_event hh

/-- A host read goes on or faults; it is never refused, and its faults are not those of an edge (R123). -/
theorem hostReadResult_next_or_fault (r : RspReg) (s : State) :
    (∃ t, hostReadResult r s = .next t) ∨ ∃ f, hostReadResult r s = .fault f ∧ f ≠ .commandNotHeld := by
  obtain e | e | e | e | e := hostReadResult_cases r s
  · exact .inl ⟨_, e⟩
  all_goals exact .inr ⟨_, e, nofun⟩

theorem hostReadStanding_next_or_fault (r : RspReg) (s : State) :
    (∃ t, hostReadStanding r s = .next t) ∨ ∃ f, hostReadStanding r s = .fault f ∧ f ≠ .commandNotHeld := by
  obtain ⟨-, -, e⟩ | ⟨-, e⟩ | ⟨-, -, -, e⟩ := hostReadStanding_cases r s
  · exact .inl ⟨_, e⟩
  all_goals exact .inr ⟨_, e, nofun⟩

end

/-- Settles O60, by when a standing read goes on and what it leaves. -/
theorem standingReadsGoOnExactlyWhenAllowed : Obligations.StandingReadsGoOnExactlyWhenAllowed := by
  intro s r rest hh
  have hsafe : s.Safe ↔ s.isWritten r = true ∧ (r ≠ .rspErr → s.errChecked = true) := by
    simp only [State.Safe, step_of_readStanding hh, hostReadStanding_eq_next_iff]
    exact ⟨fun ⟨_, hw, hc, _⟩ => ⟨hw, hc⟩, fun ⟨hw, hc⟩ => ⟨_, hw, hc, rfl⟩⟩
  refine ⟨hsafe, ?_, ?_⟩
  · simp only [State.Safe, step_of_readStanding hh]
    exact (hostReadStanding_next_or_fault r _).imp_right fun ⟨f, e, _⟩ => ⟨f, e⟩
  · rintro rfl hw
    refine ⟨(s.withHost rest).deliver .rspErr, ?_, by simp, rfl⟩
    rw [step_of_readStanding hh, hostReadStanding_eq_next_iff]
    exact ⟨hw, fun h => absurd rfl h, rfl⟩

/-- Settles O53: neither read goes on at an unwritten register. -/
theorem unwrittenRegistersCannotBeRead : Obligations.UnwrittenRegistersCannotBeRead := by
  refine fun s r rest hw => ⟨fun hh => ?_, fun hh => ?_⟩
  · rw [step_of_readResult hh]
    obtain ⟨t, e⟩ | ⟨f, e, -⟩ := hostReadResult_next_or_fault r (s.withHost rest)
    · obtain ⟨-, hw', -⟩ := (hostReadResult_eq_next_iff r _ t).mp e
      exact absurd hw' (Bool.eq_false_iff.mp hw)
    · exact ⟨f, e⟩
  · rw [step_of_readStanding hh]
    exact if_pos (congrArg not hw)

/-- The core's own edge always goes on: no instruction and no pins can stop it (R116). -/
theorem clockEdge_eq_next (p : Pins) (s : State) : ∃ t, clockEdge p s = .next t := by
  obtain ⟨-, e⟩ | ⟨-, -, q, -, -, e⟩ | ⟨-, -, q, -, -, e⟩ | ⟨-, -, -, e⟩ | ⟨-, -, -, e⟩ := clockEdge_cases p s
  case inr.inr.inl => exact e ▸ exec_eq_next (decode q.cmd) s
  all_goals exact ⟨_, e⟩

theorem hostEdge_ne_refused (p : Pins) (s : State) (r : Refusal) : hostEdge p s ≠ .refused r := by
  obtain ⟨-, e⟩ | ⟨-, e⟩ := hostEdge_cases p s <;> rw [e]
  · obtain ⟨t, e⟩ := clockEdge_eq_next p (s.noteOffer p)
    simp [e]
  · nofun

/-- An edge faults exactly where a command on offer is not presented at an edge without reset (R129). -/
theorem hostEdge_eq_fault_iff (p : Pins) (s : State) (f : Fault) : hostEdge p s = .fault f ↔
    f = .commandNotHeld ∧ ∃ c, s.offered = some c ∧ p.rst = false ∧ presented p ≠ some c := by
  rw [← breaksHold_iff_presented]
  obtain ⟨hb, e⟩ | ⟨hb, e⟩ := hostEdge_cases p s
  · obtain ⟨t, et⟩ := clockEdge_eq_next p (s.noteOffer p)
    simp [e, et, hb]
  · rw [e]
    exact ⟨fun h => ⟨by cases h; rfl, hb⟩, fun ⟨hf, _⟩ => hf ▸ rfl⟩

/-- The one refusal: the issue of a term the ports cannot carry (R123 outcome 3). -/
theorem step_eq_refused_iff (s : State) (r : Refusal) : step s = .refused r ↔
    r = .notPresentable ∧ ∃ i rest, s.host = .issue i :: rest ∧ i.wf = false := by
  constructor
  · intro h
    obtain ⟨p, l, e, -⟩ | ⟨l, e⟩ | ⟨q, l, -, e⟩ | ⟨q, l, -, e⟩ | ⟨i, l, hh, hwf, e⟩ := step_cases s <;> rw [e] at h
    · exact absurd h (hostEdge_ne_refused p _ r)
    · cases h
    · obtain ⟨t, e⟩ | ⟨f, e, -⟩ := hostReadResult_next_or_fault q (s.withHost l) <;> cases e ▸ h
    · obtain ⟨t, e⟩ | ⟨f, e, -⟩ := hostReadStanding_next_or_fault q (s.withHost l) <;> cases e ▸ h
    · cases h
      exact ⟨rfl, i, l, hh, hwf⟩
  · rintro ⟨rfl, i, rest, hh, hwf⟩
    rw [step_of_event hh]
    exact if_neg (Bool.eq_false_iff.mp hwf)

theorem commandNotHeld_or_read_of_step_fault {s : State} {f : Fault} (h : step s = .fault f) :
    f = .commandNotHeld ∨ ∃ r rest, s.host = .readResult r :: rest ∨ s.host = .readStanding r :: rest := by
  obtain ⟨p, l, e, -⟩ | ⟨l, e⟩ | ⟨r, l, hh, -⟩ | ⟨r, l, hh, -⟩ | ⟨i, l, -, -, e⟩ := step_cases s
  · exact .inl ((hostEdge_eq_fault_iff p _ f).mp (e ▸ h)).1
  · cases e ▸ h
  · exact .inr ⟨r, l, .inl hh⟩
  · exact .inr ⟨r, l, .inr hh⟩
  · cases e ▸ h

/-- The steps at which the host breaks its hold, by its next action (R129; log entry 12). -/
theorem step_eq_commandNotHeld_iff (s : State) : step s = .fault .commandNotHeld ↔ ∃ c, s.offered = some c ∧
    (s.host = [] ∨ (s.busy = true ∧ ∃ rest, s.host = .await :: rest) ∨
      (∃ p rest, s.host = .edge p :: rest ∧ p.rst = false ∧ presented p ≠ some c) ∨
      ∃ i rest, s.host = .issue i :: rest ∧ i.wf = true ∧ encode i ≠ c) := by
  cases hh : s.host with
  | nil => simp [step_of_no_event hh, hostEdge_eq_fault_iff, presented, idlePins]
  | cons ev rest =>
    rw [step_of_event hh]
    cases ev with
    | edge p => simp [hostEvent, hostEdge_eq_fault_iff]
    | issue i =>
      have hoffered : (if s.busy then s else s.withHost rest).offered = s.offered := by split <;> rfl
      cases hwf : i.wf <;> simp [hostEvent, hostEdge_eq_fault_iff, hwf, hoffered, presented, presentPins]
    | await =>
      cases hb : s.busy <;> simp [hostEvent, hostEdge_eq_fault_iff, hb, presented, idlePins]
    | readResult r =>
      obtain ⟨t, e⟩ | ⟨f, e, hf⟩ := hostReadResult_next_or_fault r (s.withHost rest) <;> simp [hostEvent, *]
    | readStanding r =>
      obtain ⟨t, e⟩ | ⟨f, e, hf⟩ := hostReadStanding_next_or_fault r (s.withHost rest) <;> simp [hostEvent, *]

/-- Settles O55, by the exact condition of each way a step can stop. -/
theorem onlyTheHostCanStopTheMachine : Obligations.OnlyTheHostCanStopTheMachine := fun s =>
  ⟨step_eq_refused_iff s, fun _ h => commandNotHeld_or_read_of_step_fault h, step_eq_commandNotHeld_iff s⟩

end Sys2Proof.Machine
end

section
/-! PROOFS. A host read changes the host's own part of the state and nothing of the core (R44, R131). -/

namespace Sys2Proof.Machine

open Sys2Proof.Claims

/-- Either kind of host read, where it goes on, delivers the register and does nothing else (R44). -/
theorem eq_deliver_of_step_read {s t : State} {r : RspReg} {rest : List HostEvent}
    (hh : s.host = .readResult r :: rest ∨ s.host = .readStanding r :: rest) (h : step s = .next t) :
    t = (s.withHost rest).deliver r := by
  obtain hh | hh := hh
  · rw [step_of_readResult hh, hostReadResult_eq_next_iff] at h
    obtain ⟨-, -, -, -, ht⟩ := h
    exact ht
  · rw [step_of_readStanding hh, hostReadStanding_eq_next_iff] at h
    obtain ⟨-, -, ht⟩ := h
    exact ht

/-- RSP_ERR counts as read after a delivery iff it did before, or is the register delivered (R131; log entry 5). -/
theorem deliver_errChecked_eq_true_iff (s : State) (r : RspReg) :
    (s.deliver r).errChecked = true ↔ s.errChecked = true ∨ r = .rspErr := by
  rw [State.deliver_errChecked, Bool.or_eq_true, beq_iff_eq]

/-- Settles O51: a read that goes on is a delivery, which touches only the host's part of the state. -/
theorem hostReadsChangeNothingOfTheCore : Obligations.HostReadsChangeNothingOfTheCore := by
  intro s t r rest hh h
  have ht : t = (s.withHost rest).deliver r := eq_deliver_of_step_read hh h
  subst ht
  exact ⟨rfl, deliver_errChecked_eq_true_iff (s.withHost rest) r⟩

end Sys2Proof.Machine
end

section
/-! PROOFS. The encoder and the decoder are inverse, row by row of the opcode table (R52 to R54, R58 to R60). -/

namespace Sys2Proof

theorem wf_fromHex_iff (tlen : Nat) (t : List Byte) : (Instr.fromHex tlen t).wf = true ↔
    tlen < 2 ^ Config.tlenBits ∧ t.length = if tlen ≤ Config.hexInMax then tlen else 0 := by
  simp [Instr.wf, tlenFits, textMatches]

theorem decodeText_of_le {c : Command} (h : c.txtLen.toNat ≤ Config.hexInMax) :
    decodeText c = .fromHex c.txtLen.toNat (firstBytes c.txtIn c.txtLen.toNat) := by
  simp [decodeText, h]

/-- A reserved length has no text bytes (R58; log entry 10). -/
theorem decodeText_of_reserved {c : Command} (h : Config.hexInMax < c.txtLen.toNat) :
    decodeText c = .fromHex c.txtLen.toNat [] := by
  simp [decodeText, Nat.not_le.mpr h]

theorem toNat_ofNat_tlen {tlen : Nat} (h : tlen < 2 ^ Config.tlenBits) :
    (BitVec.ofNat Config.tlenBits tlen).toNat = tlen := by
  rw [BitVec.toNat_ofNat, Nat.mod_eq_of_lt h]

/-- The one row whose operand is packed: the text port gives back the bytes, the length port their number. -/
theorem decodeText_encode_fromHex {tlen : Nat} {t : List Byte} (hwf : (Instr.fromHex tlen t).wf = true) :
    decodeText (encode (.fromHex tlen t)) = .fromHex tlen t := by
  obtain ⟨hfits, hlen⟩ := (wf_fromHex_iff tlen t).mp hwf
  have htlen : (encode (.fromHex tlen t)).txtLen.toNat = tlen := toNat_ofNat_tlen hfits
  by_cases hle : tlen ≤ Config.hexInMax
  · rw [if_pos hle] at hlen
    have hbytes : firstBytes (encode (.fromHex tlen t)).txtIn tlen = t := by
      rw [← hlen]
      exact firstBytes_packBytes _ t (Nat.mul_le_mul_left 8 (hlen ▸ hle))
    rw [decodeText_of_le (htlen.symm ▸ hle), htlen, hbytes]
  · rw [if_neg hle] at hlen
    rw [decodeText_of_reserved (htlen.symm ▸ Nat.lt_of_not_le hle), htlen, List.eq_nil_of_length_eq_zero hlen]

/-- Settles O5: every operand but a text stands on its port as it is, and a text is packed and read back. -/
theorem decodeOfEncodeIsTheInstruction : Obligations.DecodeOfEncodeIsTheInstruction := by
  intro i hwf
  cases i with
  | fromHex tlen t => exact decodeText_encode_fromHex hwf
  | fromU32 | fromWords | toHex | getWord | add | negate | sub | rotateLeft | rotateRight
  | reservedA | reservedB | reservedC | reservedD | reservedE | reservedF => rfl

theorem wf_decodeText (c : Command) : (decodeText c).wf = true := by
  refine (wf_fromHex_iff _ _).mpr ⟨c.txtLen.isLt, ?_⟩
  split <;> simp

theorem txtLen_encode_decodeText (c : Command) : (encode (decodeText c)).txtLen = c.txtLen :=
  BitVec.eq_of_toNat_eq (toNat_ofNat_tlen c.txtLen.isLt)

theorem byteAt_txtIn_encode_decodeText {c : Command} (hle : c.txtLen.toNat ≤ Config.hexInMax) {p : Nat}
    (hp : p < c.txtLen.toNat) : byteAt (encode (decodeText c)).txtIn p = byteAt c.txtIn p := by
  rw [decodeText_of_le hle]
  refine (byteAt_packBytes _ _ (by simpa using hle) p).trans ?_
  simp [firstBytes, hp]

/-- Settles O6, by the rows of the table: a row's encoder drives the ports its decoder reads. -/
theorem encodeOfDecodeRestoresTheReadPorts : Obligations.EncodeOfDecodeRestoresTheReadPorts := by
  rintro ⟨op, opa, opb, ops, txtLen, txtIn⟩
  have hrow := mem_opcodes op
  simp only [List.mem_cons, List.not_mem_nil, or_false] at hrow
  obtain rfl | rfl | rfl | rfl | rfl | rfl | rfl | rfl | rfl | rfl | rfl | rfl | rfl | rfl | rfl | rfl := hrow
  · exact ⟨rfl, rfl, nofun, nofun, fun _ => rfl, nofun⟩
  · exact ⟨rfl, rfl, fun _ => rfl, nofun, nofun, nofun⟩
  · exact ⟨wf_decodeText _, rfl, nofun, nofun, nofun,
      fun _ => ⟨txtLen_encode_decodeText _, fun hle _ hp => byteAt_txtIn_encode_decodeText hle hp⟩⟩
  · exact ⟨rfl, rfl, fun _ => rfl, nofun, nofun, nofun⟩
  · exact ⟨rfl, rfl, fun _ => rfl, nofun, fun _ => rfl, nofun⟩
  · exact ⟨rfl, rfl, fun _ => rfl, fun _ => rfl, nofun, nofun⟩
  · exact ⟨rfl, rfl, fun _ => rfl, nofun, nofun, nofun⟩
  · exact ⟨rfl, rfl, fun _ => rfl, fun _ => rfl, nofun, nofun⟩
  · exact ⟨rfl, rfl, fun _ => rfl, nofun, fun _ => rfl, nofun⟩
  · exact ⟨rfl, rfl, fun _ => rfl, nofun, fun _ => rfl, nofun⟩
  all_goals exact ⟨rfl, rfl, nofun, nofun, nofun, nofun⟩

/-- Settles O3, row by row; the text row takes the bytes below a legal length and none of a reserved one. -/
theorem everyOpValueDecodesToItsRow : Obligations.EveryOpValueDecodesToItsRow := by
  rintro ⟨op, opa, opb, ops, txtLen, txtIn⟩
  refine ⟨?_, ?_, ?text, ?reservedText, ?_, ?_, ?_, ?_, ?_, ?_, ?_, ?_, ?_, ?_, ?_, ?_, ?_⟩
  case text => rintro rfl hle; exact decodeText_of_le hle
  case reservedText => rintro rfl hlt; exact ⟨[], decodeText_of_reserved hlt⟩
  all_goals rintro rfl; rfl

/-- Settles O4 by running the decoder on each word. -/
theorem writtenOutWordsDecode : Obligations.WrittenOutWordsDecode := by
  unfold Obligations.WrittenOutWordsDecode
  decide

end Sys2Proof
end

section
/-! PROOFS. The word index, the rotation amount, and the errors of a text, of an index and of the reserved OPs
(R56 to R59, R70, R87, R88, R104, R107, R117). -/

namespace Sys2Proof.Machine

open Sys2Proof.Claims

section Errors

variable {s : State}

theorem exec_fromHex_of_reserved {tlen : Nat} {t : List Byte} (h : Config.hexInMax < tlen) :
    exec (.fromHex tlen t) s = .next (s.raise .illegalCommand) := if_pos h

theorem exec_fromHex_of_nonDigit {tlen : Nat} {t : List Byte} (hlen : tlen ≤ Config.hexInMax)
    (h : ∃ c ∈ t, isHexDigit c = false) : exec (.fromHex tlen t) s = .next (s.raise .invalidDigit) := by
  have hall : ¬ t.all isHexDigit = true := by simpa using h
  exact (if_neg (Nat.not_lt.mpr hlen)).trans (if_neg hall)

theorem indexSelect_eq_toNat {index : Word} (h : index.toNat ≤ 7) : indexSelect index = index.toNat := by
  simp only [indexSelect, BitVec.extractLsb'_toNat, Nat.shiftRight_zero]
  omega

theorem exec_getWord_of_le {a : U256} {index : Word} (h : index.toNat ≤ 7) :
    exec (.getWord a index) s = .next (s.succeedW (word a (indexSelect index))) := if_pos (decide_eq_true h)

theorem exec_getWord_of_gt {a : U256} {index : Word} (h : 7 < index.toNat) :
    exec (.getWord a index) s = .next (s.raise .indexOutOfRange) := by
  have hout : ¬ indexInRange index = true := by simpa [indexInRange] using h
  exact if_neg hout

theorem exec_of_form_reserved {i : Instr} (h : i.form = .reserved) :
    exec i s = .next (s.raise .illegalCommand) := by
  cases i with
  | reservedA | reservedB | reservedC | reservedD | reservedE | reservedF => rfl
  | fromU32 | fromWords | fromHex | toHex | getWord | add | negate | sub | rotateLeft | rotateRight => cases h

end Errors

/-- Settles O13: the reserved length is looked at first. -/
theorem fromHexRejectsAReservedLength : Obligations.FromHexRejectsAReservedLength :=
  fun _ _ _ h => exec_fromHex_of_reserved h

/-- The range check of R57: the index is in range exactly where its bits 31..3 are 0. -/
theorem toNat_le_seven_iff (index : Word) : index.toNat ≤ 7 ↔ index.extractLsb' 3 29 = 0#29 := by
  rw [← BitVec.toNat_inj]
  simp only [BitVec.extractLsb'_toNat, Nat.shiftRight_eq_div_pow, BitVec.toNat_ofNat]
  have := index.isLt
  omega

/-- Settles O24, by the two branches of the range check. -/
theorem getWordChecksItsIndex : Obligations.GetWordChecksItsIndex :=
  fun _ index _ => ⟨toNat_le_seven_iff index, exec_getWord_of_le, exec_getWord_of_gt⟩

theorem form_decode_of_reserved {c : Command} (h : 0xA ≤ c.op.toNat) : (decode c).form = .reserved := by
  have hlt : c.op.toNat < 16 := c.op.isLt
  unfold decode
  generalize c.op.toNat = n at h hlt
  interval_cases n <;> rfl

/-- Settles O39: a reserved OP decodes to an instruction of the reserved form, and each of those is IllegalCommand. -/
theorem reservedOpsCompleteWithIllegalCommand : Obligations.ReservedOpsCompleteWithIllegalCommand := by
  refine ⟨fun c s h => exec_of_form_reserved (form_decode_of_reserved h), fun s i hi => exec_of_form_reserved ?_⟩
  simp only [List.mem_cons, List.not_mem_nil, or_false] at hi
  obtain rfl | rfl | rfl | rfl | rfl | rfl := hi <;> rfl

theorem rotAmount_eq_extract (n : Word) : rotAmount n = (n.extractLsb' 0 8).toNat := by
  simp [rotAmount, BitVec.extractLsb'_toNat]

theorem rotWords_rotAmount (n : Word) : rotWords (rotAmount n) = (n.extractLsb' 5 3).toNat := by
  simp only [rotWords, rotAmount, BitVec.extractLsb'_toNat, Nat.shiftRight_eq_div_pow]
  omega

theorem rotBits_rotAmount (n : Word) : rotBits (rotAmount n) = (n.extractLsb' 0 5).toNat := by
  simp only [rotBits, rotAmount, BitVec.extractLsb'_toNat, Nat.shiftRight_zero]
  omega

/-- Settles O34: both rotates take S by its rotation amount alone, which is the low byte. -/
theorem rotationAmountIsTheLowByte : Obligations.RotationAmountIsTheLowByte := by
  refine fun n n' a s => ⟨rfl, rotAmount_eq_extract n, rotWords_rotAmount n, rotBits_rotAmount n, fun hbyte => ?_⟩
  have hamount : rotAmount n = rotAmount n' := by rw [rotAmount_eq_extract, rotAmount_eq_extract, hbyte]
  simp only [exec, execRotateLeft, execRotateRight, hamount, and_self]

end Sys2Proof.Machine
end

section
/-! PROOFS. The word-serial adder and negation unit are addition and negation modulo 2^256 (R89, R91, R93), and a word
of a complemented value is the complemented word. -/

namespace Sys2Proof.Machine

/-- A chain over eight word pairs gives the sum of the two numbers and the carry in, modulo 2^256 (R89). -/
theorem toNat_ofWords_carryChain {ps : List (Word × Word)} (hl : ps.length = 8) (c : Nat) :
    (ofWords (carryChain ps c)).toNat =
      (wordsVal (ps.map Prod.fst) + wordsVal (ps.map Prod.snd) + c) % 2 ^ 256 := by
  have hsum := carryChain_sum ps c
  rw [hl] at hsum
  rw [← hsum, Nat.add_mul_mod_self_left, ofWords, BitVec.toNat_ofNat]

theorem toNat_addc (x y : U256) (c : Nat) : (addc x y c).toNat = (x.toNat + y.toNat + c) % 2 ^ 256 := by
  rw [addc, toNat_ofWords_carryChain (by simp), List.map_fst_zip (by simp), List.map_snd_zip (by simp),
    wordsVal_words, wordsVal_words]

theorem addc_zero_eq_add (x y : U256) : addc x y 0 = x + y :=
  BitVec.eq_of_toNat_eq (by rw [toNat_addc, BitVec.toNat_add, Nat.add_zero])

/-- A list of words and its complement sum to all ones. -/
theorem wordsVal_map_not (ws : List Word) :
    wordsVal (ws.map fun w => ~~~w) + wordsVal ws + 1 = 2 ^ (32 * ws.length) := by
  induction ws with
  | nil => rfl
  | cons w ws ih =>
    have hw := w.isLt
    simp only [List.map_cons, wordsVal_cons, List.length_cons, two_pow_word_succ, BitVec.toNat_not]
    omega

theorem wordsVal_map_zero (ws : List Word) : wordsVal (ws.map fun _ => 0#32) = 0 := by
  induction ws with
  | nil => rfl
  | cons w ws ih => simp only [List.map_cons, wordsVal_cons, ih, BitVec.toNat_zero, Nat.mul_zero]

theorem toNat_neg (x : U256) : (neg x).toNat = (2 ^ 256 - x.toNat) % 2 ^ 256 := by
  have hnot := wordsVal_map_not (words x)
  rw [wordsVal_words, length_words] at hnot
  have hsum : wordsVal ((words x).map fun w => ~~~w) + 0 + 1 = 2 ^ 256 - x.toNat := by omega
  rw [neg, toNat_ofWords_carryChain (by simp), List.map_map, List.map_map]
  simp only [Function.comp_def, wordsVal_map_zero]
  rw [hsum]

theorem neg_eq_neg (x : U256) : neg x = -x :=
  BitVec.eq_of_toNat_eq (by rw [toNat_neg, BitVec.toNat_neg])

theorem word_not (x : U256) {i : Nat} (h : i < 8) : word (~~~x) i = ~~~(word x i) := by
  refine BitVec.eq_of_getLsbD_eq fun b hb => ?_
  rw [getLsbD_word _ _ _ hb, BitVec.getLsbD_not, BitVec.getLsbD_not, getLsbD_word _ _ _ hb]
  have : 32 * i + b < 256 := by omega
  simp only [this, hb]

end Sys2Proof.Machine
end

section
/-! PROOFS. The bits of the two rotations, and the left rotation that is a right one (R102, R105, R109). -/

namespace Sys2Proof.Machine

variable (x : U256) {k j : Nat}

theorem getLsbD_rol (hk : k < 256) (hj : j < 256) :
    (rol x k).getLsbD j = x.getLsbD ((j + 256 - k) % 256) := by
  simp only [rol, rotBits, rotWords]
  rw [getLsbD_buildWords _ _ hj, getLsbD_joinLeft _ _ _ _ (Nat.mod_lt _ (by decide)) (Nat.mod_lt _ (by decide))]
  split
  all_goals
    rw [getLsbD_word _ _ _ (by omega)]
    congr 1
    omega

theorem getLsbD_ror (hj : j < 256) : (ror x k).getLsbD j = x.getLsbD ((j + k) % 256) := by
  simp only [ror, rotBits, rotWords]
  rw [getLsbD_buildWords _ _ hj, getLsbD_joinRight _ _ _ _ (Nat.mod_lt _ (by decide)) (Nat.mod_lt _ (by decide))]
  split
  all_goals
    rw [getLsbD_word _ _ _ (by omega)]
    congr 1
    omega

/-- Right by k is left by 256 - k (R109). -/
theorem rol_eq_ror (hk : k < 256) : rol x ((256 - k) % 256) = ror x k := by
  refine BitVec.eq_of_getLsbD_eq fun j hj => ?_
  rw [getLsbD_rol x (Nat.mod_lt _ (by decide)) hj, getLsbD_ror x hj]
  congr 1
  omega

end Sys2Proof.Machine
end

section
/-! PROOFS. Running a listing line: the command it encodes, the completion, and what its name is bound to (R61 to R63,
R111, R112). -/

namespace Sys2Proof.Machine

open Sys2Proof.Claims

variable {names : Names} {s t : State} {i : Instr} {op : LineOp} {x : String}

/-! ## What a name is bound to -/

theorem ErrKind.ofCode_code (k : ErrKind) : ErrKind.ofCode k.code = some k := by
  cases k <;> rfl

theorem resultName_of_error {k : ErrKind} (f : Form) (h : t.rspErr = k.code) : resultName f t = .error k := by
  simp only [resultName, h, ErrKind.ofCode_code]

theorem ofCode_of_success (h : t.rspErr = 0#2) : ErrKind.ofCode t.rspErr = none := by
  rw [h]; rfl

theorem resultName_fmtASW (h : t.rspErr = 0#2) : resultName .fmtASW t = .word t.rspW := by
  simp only [resultName, ofCode_of_success h]

theorem resultName_fmtATxt (h : t.rspErr = 0#2) : resultName .fmtATxt t = .text t.text := by
  simp only [resultName, ofCode_of_success h]

theorem resultName_value {f : Form} (h : t.rspErr = 0#2) (hword : f ≠ .fmtASW) (htext : f ≠ .fmtATxt) :
    resultName f t = .value t.rspR := by
  cases f with
  | fmtASW => exact absurd rfl hword
  | fmtATxt => exact absurd rfl htext
  | fmtS | fmtA | fmtT | fmtAB | fmtAS | reserved => simp only [resultName, ofCode_of_success h]

/-! ## The run of a line -/

theorem Line.run_of_exec (hop : op.resolve names = some i) (hwf : i.wf = true) (he : exec i s = .next t)
    (x : Option String) :
    Line.run { op := op, result := x } names s = some (bindResult x (resultName i.form t) names, t) := by
  simp only [Line.run, hop, hwf, he, if_true]

theorem Line.run_eq_none {l : Line}
    (h : l.op.resolve names = none ∨ ∃ i, l.op.resolve names = some i ∧ i.wf = false) : l.run names s = none := by
  obtain hop | ⟨i, hop, hwf⟩ := h
  · simp only [Line.run, hop]
  · simp only [Line.run, hop, hwf, Bool.false_eq_true, if_false]

theorem Line.run_of_raise {k : ErrKind} (hop : op.resolve names = some i) (hwf : i.wf = true)
    (he : exec i s = .next (s.raise k)) :
    Line.run { op := op, result := some x } names s = some ((x, .error k) :: names, errorDone s k.code) := by
  rw [Line.run_of_exec hop hwf he, resultName_of_error i.form (State.raise_rspErr s k)]
  rfl

theorem Line.run_of_succeedR {v : U256} (hop : op.resolve names = some i) (hwf : i.wf = true)
    (he : exec i s = .next (s.succeedR v)) (hword : i.form ≠ .fmtASW) (htext : i.form ≠ .fmtATxt) :
    Line.run { op := op, result := some x } names s = some ((x, .value v) :: names, valueDone s v) := by
  rw [Line.run_of_exec hop hwf he, resultName_value rfl hword htext]
  rfl

theorem Line.run_of_succeedW {w : Word} (hop : op.resolve names = some i) (hwf : i.wf = true)
    (he : exec i s = .next (s.succeedW w)) (hform : i.form = .fmtASW) :
    Line.run { op := op, result := some x } names s = some ((x, .word w) :: names, wordDone s w) := by
  rw [Line.run_of_exec hop hwf he, hform, resultName_fmtASW rfl]
  rfl

/-! ## The text register -/

theorem toNat_rspTxtLen_formatHex (a : U256) :
    (BitVec.ofNat 7 (formatHex a).length).toNat = (formatHex a).length := by
  have ⟨_, hle⟩ := length_formatHex_bounds a
  rw [BitVec.toNat_ofNat, Nat.mod_eq_of_lt (by omega)]

/-- The numeral fits the text register, with 0x00 beyond it (R27, R84). -/
theorem holdsText_formatHex (a : U256) :
    holdsText (packBytes 512 (formatHex a)) (BitVec.ofNat 7 (formatHex a).length) (formatHex a) :=
  have ⟨_, hle⟩ := length_formatHex_bounds a
  ⟨toNat_rspTxtLen_formatHex a, fun p _ => byteAt_packBytes 512 _ (by omega) p⟩

theorem text_succeedTxt_formatHex (s : State) (a : U256) : (s.succeedTxt (formatHex a)).text = formatHex a := by
  have ⟨_, hle⟩ := length_formatHex_bounds a
  rw [State.text, State.succeedTxt_rspTxt, State.succeedTxt_rspTxtLen, toNat_rspTxtLen_formatHex,
    firstBytes_packBytes 512 _ (by omega)]

theorem Line.run_of_succeedTxt {a : U256} (hop : op.resolve names = some i) (hwf : i.wf = true)
    (he : exec i s = .next (s.succeedTxt (formatHex a))) (hform : i.form = .fmtATxt) :
    Line.run { op := op, result := some x } names s = some ((x, .text (formatHex a)) :: names,
      textDone s (packBytes 512 (formatHex a)) (BitVec.ofNat 7 (formatHex a).length)) := by
  rw [Line.run_of_exec hop hwf he, hform, resultName_fmtATxt rfl, text_succeedTxt_formatHex]
  rfl

/-! ## Operands -/

theorem resolveScalar_of_lt {n : Nat} (h : n < 2 ^ 32) : resolveScalar n = some (BitVec.ofNat 32 n) := if_pos h

theorem resolveScalar_toNat (w : Word) : resolveScalar w.toNat = some w := by
  rw [resolveScalar_of_lt w.isLt, BitVec.ofNat_toNat, BitVec.setWidth_eq]

theorem ofText_of_le {t : List Byte} (h : t.length ≤ Config.hexInMax) : Instr.ofText t = .fromHex t.length t := by
  rw [Instr.ofText, if_pos h]

theorem ofText_of_reserved {t : List Byte} (h : Config.hexInMax < t.length) :
    Instr.ofText t = .fromHex t.length [] := by
  rw [Instr.ofText, if_neg (Nat.not_le.mpr h)]

theorem wf_fromHex_of_reserved {tlen : Nat} (h : Config.hexInMax < tlen) (hfits : tlen < 2 ^ Config.tlenBits) :
    (Instr.fromHex tlen []).wf = true :=
  (wf_fromHex_iff _ _).mpr ⟨hfits, by rw [if_neg (Nat.not_le.mpr h)]; rfl⟩

section Operands

variable {a b : ValueOperand} {v w : U256} {n : Nat} {k : Word}

theorem resolve_fromU32 (hk : resolveScalar n = some k) : (LineOp.fromU32 n).resolve names = some (.fromU32 k) := by
  simp [LineOp.resolve, hk]

theorem resolve_fromWords (ha : a.resolve names = some v) :
    (LineOp.fromWords a).resolve names = some (.fromWords v) := by
  simp [LineOp.resolve, ha]

theorem resolve_toHex (ha : a.resolve names = some v) : (LineOp.toHex a).resolve names = some (.toHex v) := by
  simp [LineOp.resolve, ha]

theorem resolve_negate (ha : a.resolve names = some v) : (LineOp.negate a).resolve names = some (.negate v) := by
  simp [LineOp.resolve, ha]

theorem resolve_add (ha : a.resolve names = some v) (hb : b.resolve names = some w) :
    (LineOp.add a b).resolve names = some (.add v w) := by
  simp [LineOp.resolve, ha, hb]

theorem resolve_sub (ha : a.resolve names = some v) (hb : b.resolve names = some w) :
    (LineOp.sub a b).resolve names = some (.sub v w) := by
  simp [LineOp.resolve, ha, hb]

theorem resolve_getWord (ha : a.resolve names = some v) (hk : resolveScalar n = some k) :
    (LineOp.getWord a n).resolve names = some (.getWord v k) := by
  simp [LineOp.resolve, ha, hk]

theorem resolve_rotateLeft (ha : a.resolve names = some v) (hk : resolveScalar n = some k) :
    (LineOp.rotateLeft a n).resolve names = some (.rotateLeft v k) := by
  simp [LineOp.resolve, ha, hk]

end Operands

/-! ## The statement -/

/-- What a name is bound to is fixed by the code and, on success, by the form (R61, R112). -/
theorem resultName_spec (f : Form) (t : State) :
    (t.rspErr = 0#2 → f = .fmtASW → resultName f t = .word t.rspW) ∧
    (t.rspErr = 0#2 → f = .fmtATxt → resultName f t = .text t.text) ∧
    (t.rspErr = 0#2 → f ≠ .fmtASW → f ≠ .fmtATxt → resultName f t = .value t.rspR) ∧
    (t.rspErr = 1#2 → resultName f t = .error .invalidDigit) ∧
    (t.rspErr = 2#2 → resultName f t = .error .indexOutOfRange) ∧
    (t.rspErr = 3#2 → resultName f t = .error .illegalCommand) :=
  ⟨fun h hf => hf ▸ resultName_fmtASW h, fun h hf => hf ▸ resultName_fmtATxt h,
    fun h hw ht => resultName_value h hw ht, fun h => resultName_of_error (k := .invalidDigit) f h,
    fun h => resultName_of_error (k := .indexOutOfRange) f h, fun h => resultName_of_error (k := .illegalCommand) f h⟩

/-- Settles O59: a line that resolves runs `exec`, which always completes, and each line given in full is one of the
four completions. -/
theorem listingLinesBindResultsAndErrors : Obligations.ListingLinesBindResultsAndErrors := by
  refine fun names s => ⟨fun op i hop hwf => ?_, fun l => Line.run_eq_none, fun x t hlen hbad => ?_,
    fun x t hlen hfits => ?_, fun x op a n ha => ⟨fun hn => ?_, fun hn => ?_, ?_, ?_⟩⟩
  · obtain ⟨t, he⟩ := exec_eq_next i s
    exact ⟨t, he, Line.run_of_exec hop hwf he none,
      fun x => ⟨_, Line.run_of_exec hop hwf he (some x), resultName_spec i.form t⟩⟩
  · exact Line.run_of_raise (congrArg some (ofText_of_le hlen)) (wf_fromHex t hlen)
      (exec_fromHex_of_nonDigit hlen hbad)
  · exact Line.run_of_raise (congrArg some (ofText_of_reserved hlen)) (wf_fromHex_of_reserved hlen hfits)
      (exec_fromHex_of_reserved hlen)
  · exact Line.run_of_succeedW (resolve_getWord ha (resolveScalar_toNat n)) rfl
      (indexSelect_eq_toNat hn ▸ exec_getWord_of_le hn) rfl
  · exact Line.run_of_raise (resolve_getWord ha (resolveScalar_toNat n)) rfl (exec_getWord_of_gt hn)
  · exact Line.run_of_succeedR (resolve_rotateLeft ha (resolveScalar_toNat n)) rfl rfl nofun nofun
  · exact ⟨_, _, holdsText_formatHex a, Line.run_of_succeedTxt (resolve_toHex ha) rfl rfl rfl⟩

end Sys2Proof.Machine
end

section
/-! PROOFS. The pseudo-instructions: what the commands of each expansion leave bound (R64). -/

namespace Sys2Proof.Machine

open Sys2Proof.Claims

variable {names : Names} {s : State}

theorem runListing_cons {l : Line} {names' : Names} {t : State} (ls : List Line)
    (h : l.run names s = some (names', t)) : runListing (l :: ls) names s = runListing ls names' t := by
  simp only [runListing, h]

theorem runListing_single {l : Line} {names' : Names} {t : State} (h : l.run names s = some (names', t)) :
    runListing [l] names s = some (names', t) := runListing_cons [] h

theorem binds_of_run {p : Pseudo} {v : U256} (h : ∀ x, ∃ names' t,
    runListing (p.expand (some x)) names s = some ((x, .value v) :: names', t)) : binds p names s v := fun x =>
  have ⟨_, t, hrun⟩ := h x
  ⟨_, t, hrun, List.lookup_cons_self⟩

/-- A pseudo-instruction of one command binds what that command completes with. -/
theorem binds_of_single {p : Pseudo} {op : LineOp} {i : Instr} {v : U256}
    (hexpand : ∀ x, p.expand x = [{ op := op, result := x }]) (hop : op.resolve names = some i) (hwf : i.wf = true)
    (he : exec i s = .next (s.succeedR v)) (hword : i.form ≠ .fmtASW) (htext : i.form ≠ .fmtATxt) :
    binds p names s v := by
  refine binds_of_run fun x => ⟨names, valueDone s v, ?_⟩
  rw [hexpand]
  exact runListing_single (Line.run_of_succeedR hop hwf he hword htext)

/-- The literal 1 of inc, dec and not. -/
theorem resolve_number_one (names : Names) : (ValueOperand.number 1).resolve names = some 1#256 := by
  simp [ValueOperand.resolve]

/-- from_words completes with its operand: the words go into the result in their order (R66). -/
theorem exec_fromWords (a : U256) (s : State) : exec (.fromWords a) s = .next (s.succeedR a) := by
  rw [exec, execFromWords, buildWords_word]

/-- The two commands of not: the negation under the intermediate name, then its predecessor, the complement. -/
theorem binds_not {op : ValueOperand} {a : U256} (ha : op.resolve names = some a) :
    binds (.not op) names s (~~~a) := by
  have ht : (ValueOperand.name intermediateName).resolve ((intermediateName, .value (neg a)) :: names) =
      some (neg a) := by simp [ValueOperand.resolve]
  have hnot : addc (neg a) (neg 1#256) 0 = ~~~a := by
    rw [addc_zero_eq_add, neg_eq_neg, neg_eq_neg, BitVec.neg_eq_not_add, ← BitVec.sub_eq_add_neg,
      BitVec.add_sub_cancel]
  rw [← hnot]
  exact binds_of_run fun x => ⟨_, _,
    (runListing_cons _ (Line.run_of_succeedR (resolve_negate ha) rfl rfl nofun nofun)).trans
      (runListing_single (Line.run_of_succeedR (resolve_sub ht (resolve_number_one _)) rfl rfl nofun nofun))⟩

theorem binds_copy {op : ValueOperand} {a : U256} (ha : op.resolve names = some a) : binds (.copy op) names s a :=
  binds_of_single (fun _ => rfl) (resolve_fromWords ha) rfl (exec_fromWords a s) nofun nofun

theorem binds_inc {op : ValueOperand} {a : U256} (ha : op.resolve names = some a) :
    binds (.inc op) names s (BitVec.ofNat 256 (a.toNat + 1)) := by
  have hsum : addc a 1#256 0 = BitVec.ofNat 256 (a.toNat + 1) := by
    rw [addc_zero_eq_add, BitVec.ofNat_add, BitVec.ofNat_toNat, BitVec.setWidth_eq]
  rw [← hsum]
  exact binds_of_single (fun _ => rfl) (resolve_add ha (resolve_number_one names)) rfl rfl nofun nofun

theorem binds_dec {op : ValueOperand} {a : U256} (ha : op.resolve names = some a) :
    binds (.dec op) names s (BitVec.ofInt 256 ((a.toNat : Int) - 1)) := by
  have hdiff : addc a (neg 1#256) 0 = BitVec.ofInt 256 ((a.toNat : Int) - 1) := by
    rw [addc_zero_eq_add, neg_eq_neg, Int.sub_eq_add_neg, BitVec.ofInt_add, BitVec.ofInt_natCast, BitVec.ofNat_toNat,
      BitVec.setWidth_eq]
    rfl
  rw [← hdiff]
  exact binds_of_single (fun _ => rfl) (resolve_sub ha (resolve_number_one names)) rfl rfl nofun nofun

/-- A left rotation by 256 - n is the right rotation by n (R64, R109). -/
theorem binds_rotrByRotl {op : ValueOperand} {a : U256} (ha : op.resolve names = some a) (n : Nat) :
    binds (.rotrByRotl op n) names s (ror a (n % 256)) := by
  have hlt : (256 - n % 256) % 256 < 256 := Nat.mod_lt _ (by decide)
  have hror : rol a (rotAmount (BitVec.ofNat 32 ((256 - n % 256) % 256))) = ror a (n % 256) := by
    rw [rotAmount, BitVec.toNat_ofNat, Nat.mod_eq_of_lt (b := 2 ^ 32) (by omega), Nat.mod_eq_of_lt hlt,
      rol_eq_ror a (Nat.mod_lt n (by decide))]
  rw [← hror]
  exact binds_of_single (fun _ => rfl) (resolve_rotateLeft ha (resolveScalar_of_lt (by omega))) rfl rfl nofun nofun

/-- The literal of max_value: eight words of ones (R18, R64). -/
theorem resolve_maxValue (names : Names) :
    (ValueOperand.wordList (List.replicate 8 0xFFFFFFFF#32)).resolve names = some (BitVec.allOnes 256) := rfl

/-- Settles O58: each expansion is its table row, and its commands give the row's result. -/
theorem pseudoInstructionsGiveTheirResults : Obligations.PseudoInstructionsGiveTheirResults := by
  refine ⟨fun x a n => ⟨rfl, rfl, rfl, rfl, rfl, rfl, ⟨intermediateName, rfl⟩, rfl⟩, fun names s =>
    ⟨?zero, ?one, ?max, fun op a ha => ⟨binds_copy ha, binds_inc ha, binds_dec ha,
      ⟨~~~a, fun i hi => word_not a hi, binds_not ha⟩, binds_rotrByRotl ha⟩⟩⟩
  case zero => exact binds_of_single (fun _ => rfl) (resolve_fromU32 (resolveScalar_toNat 0#32)) rfl rfl nofun nofun
  case one => exact binds_of_single (fun _ => rfl) (resolve_fromU32 (resolveScalar_toNat 1#32)) rfl rfl nofun nofun
  case max =>
    exact binds_of_single (fun _ => rfl) (resolve_fromWords (resolve_maxValue names)) rfl (exec_fromWords _ s)
      nofun nofun

end Sys2Proof.Machine
end

section
/-! PROOFS. The two constructors: the zero-extended scalar and the copied words (R55, R65, R66). -/

namespace Sys2Proof.Machine

open Sys2Proof.Claims

theorem word_scalarValue (v : Word) {i : Nat} (h : i < 8) : word (scalarValue v) i = if i = 0 then v else 0#32 :=
  word_buildWords _ i h

theorem scalarValue_eq_ofWords (v : Word) : scalarValue v = ofWords (v :: List.replicate 7 0#32) := rfl

/-- Only word 0 carries weight in the sum of R13. -/
theorem toNat_scalarValue (v : Word) : (scalarValue v).toNat = v.toNat := by
  have hzero : wordsVal (List.replicate 7 0#32) = 0 := rfl
  have hlt := v.isLt
  rw [scalarValue_eq_ofWords, ofWords, wordsVal_cons, hzero, BitVec.toNat_ofNat]
  omega

theorem exec_fromU32 (v : Word) (s : State) : exec (.fromU32 v) s = .next (s.succeedR (scalarValue v)) := rfl

/-- Settles O8: the result is the operand of R55, known by its words and as a number. -/
theorem fromU32PutsScalarInWordZero : Obligations.FromU32PutsScalarInWordZero := by
  refine fun v s => ⟨scalarValue v, ?completion, ?wordZero, ?wordsAbove, toNat_scalarValue v⟩
  case completion => rw [exec_fromU32, succeedR_eq_valueDone]
  case wordZero => rw [word_scalarValue v (by decide), if_pos rfl]
  case wordsAbove =>
    intro i hpos hlt
    rw [word_scalarValue v hlt, if_neg (Nat.ne_of_gt hpos)]

/-- Settles O9: a value rebuilt from its own words is that value. -/
theorem fromWordsCopiesTheWords : Obligations.FromWordsCopiesTheWords := fun a s => by
  rw [exec_fromWords, succeedR_eq_valueDone]

end Sys2Proof.Machine
end

section
/-! PROOFS. The hex parser: the digit table and letter case (R68 to R70), the number of a text of digits (R71, R72,
R74), and the datapaths that give the same value (R73, R76). -/

namespace Sys2Proof.Machine

open Sys2Proof.Claims

/-! ## One byte -/

section Byte

variable {c : Byte}

theorem nib?_of_decimal (hlo : 0x30 ≤ c.toNat) (hhi : c.toNat ≤ 0x39) : nib? c = some (c.toNat - 0x30) :=
  if_pos ⟨hlo, hhi⟩

theorem nib?_of_lower (hlo : 0x61 ≤ c.toNat) (hhi : c.toNat ≤ 0x66) : nib? c = some (c.toNat - 0x57) :=
  (if_neg (by omega)).trans (if_pos ⟨hlo, hhi⟩)

theorem nib?_of_upper (hlo : 0x41 ≤ c.toNat) (hhi : c.toNat ≤ 0x46) : nib? c = some (c.toNat - 0x37) :=
  (if_neg (by omega)).trans ((if_neg (by omega)).trans (if_pos ⟨hlo, hhi⟩))

/-- The four ranges between and around the digits (R68). -/
theorem nib?_of_other (h : c.toNat ≤ 0x2F ∨ (0x3A ≤ c.toNat ∧ c.toNat ≤ 0x40) ∨
    (0x47 ≤ c.toNat ∧ c.toNat ≤ 0x60) ∨ 0x67 ≤ c.toNat) : nib? c = none :=
  (if_neg (by omega)).trans ((if_neg (by omega)).trans (if_neg (by omega)))

theorem isHexDigit_and_nib_of_some {d : Nat} (h : nib? c = some d) : isHexDigit c = true ∧ nib c = d := by
  simp [isHexDigit, nib, h]

theorem isHexDigit_of_none (h : nib? c = none) : isHexDigit c = false := by
  simp [isHexDigit, h]

/-- A letter and its lower case have the same nibble, and every other byte is its own lower case (R69). -/
theorem nib?_lowerCase (c : Byte) : nib? (lowerCase c) = nib? c := by
  unfold lowerCase
  split
  · next hupper =>
    obtain ⟨hlo, hhi⟩ := hupper
    have hadd : (c + 0x20#8).toNat = c.toNat + 0x20 := by
      rw [BitVec.toNat_add, BitVec.toNat_ofNat]
      omega
    rw [nib?_of_lower (by omega) (by omega), nib?_of_upper hlo hhi, hadd]
    rfl
  · rfl

theorem isHexDigit_lowerCase (c : Byte) : isHexDigit (lowerCase c) = isHexDigit c :=
  congrArg Option.isSome (nib?_lowerCase c)

theorem nib_lowerCase (c : Byte) : nib (lowerCase c) = nib c :=
  congrArg (Option.getD · 0) (nib?_lowerCase c)

end Byte

/-- Settles O10, by the rows of the table. -/
theorem hexDigitTable : Obligations.HexDigitTable := fun _ =>
  ⟨fun hlo hhi => isHexDigit_and_nib_of_some (nib?_of_decimal hlo hhi),
    fun hlo hhi => isHexDigit_and_nib_of_some (nib?_of_lower hlo hhi),
    fun hlo hhi => isHexDigit_and_nib_of_some (nib?_of_upper hlo hhi),
    fun h => isHexDigit_of_none (nib?_of_other h)⟩

/-- Settles O12: one byte that is no digit fails the check of the whole text. -/
theorem fromHexRejectsAnyNonDigit : Obligations.FromHexRejectsAnyNonDigit := by
  refine ⟨fun tlen t s p hp hlen _ hbad => ?_, by decide, fun c hc => isHexDigit_of_none (nib?_of_other (by omega))⟩
  exact exec_fromHex_of_nonDigit hlen ⟨t[p], List.getElem_mem hp, hbad⟩

/-! ## The number of a list of digits, the last one first -/

/-- Two parts of a list of digits, at whatever length it is cut. -/
theorem digitsVal_take_add_drop (cs : List Byte) (n : Nat) :
    digitsVal (cs.take n) + 16 ^ n * digitsVal (cs.drop n) = digitsVal cs := by
  by_cases hn : n ≤ cs.length
  · have happend := digitsVal_append (cs.take n) (cs.drop n)
    rw [List.take_append_drop, List.length_take_of_le hn] at happend
    exact happend.symm
  · have hle : cs.length ≤ n := by omega
    rw [List.take_of_length_le hle, List.drop_of_length_le hle, digitsVal, Nat.mul_zero, Nat.add_zero]

theorem digitsVal_take_lt (cs : List Byte) (n : Nat) : digitsVal (cs.take n) < 16 ^ n :=
  (digitsVal_lt _).trans_le (Nat.pow_le_pow_right (by decide) (List.length_take_le n cs))

theorem digitsVal_take (cs : List Byte) (n : Nat) : digitsVal (cs.take n) = digitsVal cs % 16 ^ n := by
  rw [← digitsVal_take_add_drop cs n, Nat.add_mul_mod_self_left, Nat.mod_eq_of_lt (digitsVal_take_lt cs n)]

theorem digitsVal_drop (cs : List Byte) (n : Nat) : digitsVal (cs.drop n) = digitsVal cs / 16 ^ n := by
  rw [← digitsVal_take_add_drop cs n, Nat.add_mul_div_left _ _ (Nat.pow_pos (by decide)),
    Nat.div_eq_of_lt (digitsVal_take_lt cs n), Nat.zero_add]

theorem digitsVal_zeros (k : Nat) : digitsVal (List.replicate k 0x30#8) = 0 := by
  induction k with
  | zero => rfl
  | succ k ih =>
    have hzero : nib 0x30#8 = 0 := rfl
    rw [List.replicate_succ, digitsVal, ih, hzero]

theorem digitsVal_map_lowerCase (cs : List Byte) : digitsVal (cs.map lowerCase) = digitsVal cs := by
  induction cs with
  | nil => rfl
  | cons c cs ih => rw [List.map_cons, digitsVal, digitsVal, nib_lowerCase, ih]

/-- The recursion is the weighted sum of R72. -/
theorem digitsVal_eq_sum (cs : List Byte) :
    digitsVal cs = (Finset.range cs.length).sum fun j => nib (cs.getD j 0#8) * 16 ^ j := by
  induction cs with
  | nil => rfl
  | cons c cs ih =>
    have htail : 16 * digitsVal cs =
        (Finset.range cs.length).sum fun j => nib ((c :: cs).getD (j + 1) 0#8) * 16 ^ (j + 1) := by
      rw [ih, Finset.mul_sum]
      refine Finset.sum_congr rfl fun j _ => ?_
      rw [List.getD_cons_succ, Nat.pow_succ, Nat.mul_comm, Nat.mul_assoc]
    rw [digitsVal, htail, List.length_cons, Finset.sum_range_succ', List.getD_cons_zero, Nat.pow_zero, Nat.mul_one,
      Nat.add_comm]

/-! ## The parsed value -/

theorem sixteen_pow_64 : 16 ^ 64 = 2 ^ 256 := by decide

/-- The last 64 digits are the low 256 bits of the number of all of them (R71, R72). -/
theorem toNat_parseHex (t : List Byte) : (parseHex t).toNat = digitsVal t.reverse % 2 ^ 256 := by
  have hlast : (significant t).reverse = t.reverse.take 64 := by
    rw [List.take_eq_take_min, List.length_reverse, Nat.min_comm, List.take_reverse, significant]
  rw [parseHex, BitVec.toNat_ofNat, hlast, digitsVal_take, sixteen_pow_64, Nat.mod_mod]

theorem parseHex_eq_ofNat (t : List Byte) : parseHex t = BitVec.ofNat 256 (digitsVal t.reverse) :=
  BitVec.eq_of_toNat_eq (by rw [toNat_parseHex, BitVec.toNat_ofNat])

theorem parseHex_map_lowerCase (t : List Byte) : parseHex (t.map lowerCase) = parseHex t := by
  rw [parseHex_eq_ofNat, parseHex_eq_ofNat, ← List.map_reverse, digitsVal_map_lowerCase]

/-- What stands before 64 or more characters has a weight of 2^256 or more (R71). -/
theorem parseHex_append_of_le (front : List Byte) {t : List Byte} (h : 64 ≤ t.length) :
    parseHex (front ++ t) = parseHex t := by
  obtain ⟨k, hk⟩ := Nat.exists_eq_add_of_le h
  apply BitVec.eq_of_toNat_eq
  rw [toNat_parseHex, toNat_parseHex, List.reverse_append, digitsVal_append, List.length_reverse, hk, Nat.pow_add,
    sixteen_pow_64, Nat.mul_assoc, Nat.add_mul_mod_self_left]

theorem parseHex_zeros_append (k : Nat) (t : List Byte) : parseHex (List.replicate k 0x30#8 ++ t) = parseHex t := by
  rw [parseHex_eq_ofNat, parseHex_eq_ofNat, List.reverse_append, digitsVal_append, List.reverse_replicate,
    digitsVal_zeros, Nat.mul_zero, Nat.add_zero]

theorem parseHex_zeros (k : Nat) : parseHex (List.replicate k 0x30#8) = 0#256 := by
  rw [parseHex_eq_ofNat, List.reverse_replicate, digitsVal_zeros]

/-! ## from_hex -/

section FromHex

variable {tlen tlen' : Nat} {t t' : List Byte} {s : State}

theorem exec_fromHex_of_digits (hlen : tlen ≤ Config.hexInMax) (h : ∀ c ∈ t, isHexDigit c = true) :
    exec (.fromHex tlen t) s = .next (s.succeedR (parseHex t)) :=
  (if_neg (Nat.not_lt.mpr hlen)).trans (if_pos (List.all_eq_true.mpr h))

/-- Beside a legal length, a text counts by its validity and its value alone (R75). -/
theorem exec_fromHex_congr (hlen : tlen ≤ Config.hexInMax) (hlen' : tlen' ≤ Config.hexInMax)
    (hvalid : t.all isHexDigit = t'.all isHexDigit) (hvalue : parseHex t = parseHex t') :
    exec (.fromHex tlen t) s = exec (.fromHex tlen' t') s := by
  simp only [exec, execFromHex, Nat.not_lt.mpr hlen, Nat.not_lt.mpr hlen', hvalid, hvalue]

end FromHex

/-- The number of the last n digits, each weighted by its place from the end (R72). -/
theorem digitsVal_take_reverse (t : List Byte) {n : Nat} (hn : n ≤ t.length) : digitsVal (t.reverse.take n) =
    (Finset.range n).sum fun j => nib (t.getD (t.length - 1 - j) 0#8) * 16 ^ j := by
  rw [digitsVal_eq_sum, List.length_take_of_le (by rwa [List.length_reverse])]
  refine Finset.sum_congr rfl fun j hj => ?_
  have hjn : j < n := Finset.mem_range.mp hj
  rw [← List.getD_reverse j (hjn.trans_le hn), List.getD_eq_getElem?_getD, List.getD_eq_getElem?_getD,
    List.getElem?_take_of_lt hjn]

/-- Settles O11: both sums are the number of the last digits, of up to 64 of them and of all. -/
theorem fromHexGivesTheNumberOfTheLastDigits : Obligations.FromHexGivesTheNumberOfTheLastDigits := by
  rintro tlen t s hlen rfl hdigits
  refine ⟨parseHex t, exec_fromHex_of_digits hlen hdigits, ?last, ?all⟩
  case last =>
    rw [← digitsVal_take_reverse t (Nat.min_le_left _ _), toNat_parseHex, ← sixteen_pow_64, ← digitsVal_take,
      List.take_eq_take_min, List.length_reverse, Nat.min_comm]
  case all =>
    rw [← digitsVal_take_reverse t (Nat.le_refl _), List.take_of_length_le (by rw [List.length_reverse]),
      toNat_parseHex]

/-- Settles O14: lowering the letters changes neither the validity of a text nor its value. -/
theorem fromHexIgnoresLetterCase : Obligations.FromHexIgnoresLetterCase := by
  refine ⟨fun c => ⟨isHexDigit_lowerCase c, fun _ => nib_lowerCase c⟩, fun tlen t s => ?_⟩
  by_cases hlen : tlen ≤ Config.hexInMax
  · refine exec_fromHex_congr hlen hlen ?_ (parseHex_map_lowerCase t)
    rw [List.all_map]
    exact congrArg t.all (funext isHexDigit_lowerCase)
  · have hreserved : Config.hexInMax < tlen := Nat.lt_of_not_le hlen
    rw [exec_fromHex_of_reserved hreserved, exec_fromHex_of_reserved hreserved]

/-- Digits in front change the validity of no text. -/
theorem all_isHexDigit_append_of_digits {front : List Byte} (t : List Byte)
    (h : ∀ c ∈ front, isHexDigit c = true) : (front ++ t).all isHexDigit = t.all isHexDigit := by
  rw [List.all_append, List.all_eq_true.mpr h, Bool.true_and]

theorem isHexDigit_of_mem_zeros {k : Nat} (c : Byte) (hc : c ∈ List.replicate k 0x30#8) : isHexDigit c = true := by
  rw [List.eq_of_mem_replicate hc]
  rfl

/-- Settles O15: the digits in front have no part in the validity or in the value. -/
theorem fromHexDiscardsTheDigitsBeforeTheLast64 : Obligations.FromHexDiscardsTheDigitsBeforeTheLast64 :=
  fun front t _ ht hlen hdigits => exec_fromHex_congr hlen (le_hexInMax 64 (by decide))
    (all_isHexDigit_append_of_digits t hdigits) (parseHex_append_of_le front ht.ge)

/-- Settles O16, by the value of a text of zeros and the rules for what stands in front. -/
theorem fromHexOfEmptyAndZeroText : Obligations.FromHexOfEmptyAndZeroText := by
  refine ⟨fun s => exec_fromHex_of_digits (Nat.zero_le _) nofun, fun front k s hdigits hcase hlen => ?zeroTail,
    fun k t s hlen => ?zeroFront⟩
  case zeroTail =>
    have hvalue : parseHex (front ++ List.replicate k 0x30#8) = 0#256 := by
      obtain rfl | hk := hcase
      · exact parseHex_zeros k
      · rw [parseHex_append_of_le front (by rwa [List.length_replicate]), parseHex_zeros]
    rw [exec_fromHex_of_digits hlen (List.forall_mem_append.mpr ⟨hdigits, isHexDigit_of_mem_zeros⟩), hvalue,
      succeedR_eq_valueDone]
  case zeroFront =>
    exact exec_fromHex_congr hlen (by omega) (all_isHexDigit_append_of_digits t isHexDigit_of_mem_zeros)
      (parseHex_zeros_append k t)

/-! ## The other datapaths -/

/-- Eight digits from digit 8i up are 32 bits from bit 32i up (R73). -/
theorem word_parseHex (t : List Byte) {i : Nat} (h : i < 8) : word (parseHex t) i = groupWord t i := by
  have hweight : 16 ^ (8 * i) = 2 ^ (32 * i) := by rw [Nat.pow_mul, Nat.pow_mul]
  have hsplit : 2 ^ 256 = 2 ^ (32 * i) * 2 ^ (32 * (8 - i)) := by
    rw [← Nat.pow_add]
    congr 1
    omega
  have hdvd : 2 ^ 32 ∣ 2 ^ (32 * (8 - i)) := Nat.pow_dvd_pow 2 (by omega)
  have hgroup : 16 ^ 8 = 2 ^ 32 := by decide
  apply BitVec.eq_of_toNat_eq
  rw [word, groupWord, BitVec.extractLsb'_toNat, BitVec.toNat_ofNat, Nat.shiftRight_eq_div_pow, toNat_parseHex,
    digitsVal_take, digitsVal_drop, hweight, hgroup, Nat.mod_mod, hsplit, Nat.mod_mul_right_div_self,
    Nat.mod_mod_of_dvd _ hdvd]

theorem parseGroups_eq_parseHex (t : List Byte) : parseGroups t = parseHex t :=
  eq_of_word_eq _ _ fun i h => by rw [parseGroups, word_buildWords _ i h, word_parseHex t h]

theorem parseSerial_append_singleton (t : List Byte) (c : Byte) :
    parseSerial (t ++ [c]) = BitVec.ofNat 256 ((parseSerial t).toNat * 16 + nib c) := by
  rw [parseSerial, List.foldl_append]
  rfl

/-- One character more moves every digit up a nibble; what leaves the accumulator is above bit 255 (R76). -/
theorem parseSerial_eq_parseHex (t : List Byte) : parseSerial t = parseHex t := by
  induction t using List.reverseRecOn with
  | nil => rfl
  | append_singleton t c ih =>
    rw [parseSerial_append_singleton, ih, toNat_parseHex, parseHex_eq_ofNat, List.reverse_append]
    apply BitVec.eq_of_toNat_eq
    simp only [List.reverse_singleton, List.singleton_append, digitsVal, BitVec.toNat_ofNat]
    omega

/-- Settles O17: word by word for the groups, character by character for the accumulator. -/
theorem parserDatapathsAgree : Obligations.ParserDatapathsAgree :=
  fun t _ => ⟨parseGroups_eq_parseHex t, parseSerial_eq_parseHex t⟩

end Sys2Proof.Machine
end

section
/-! PROOFS. The hex formatter: its word-level text is the text of the value's hex digits, the most significant first
(R79 to R82, R84), and the parser gives the value back (R86). -/

namespace Sys2Proof.Machine

open Sys2Proof.Claims

/-! ## One character -/

theorem toNat_hexchar_of_lt {d : Nat} (h : d < 10) : (hexchar d).toNat = 0x30 + d := by
  rw [hexchar, if_pos h, BitVec.toNat_ofNat]
  omega

/-- Settles O19: the decimal digits by their offset from '0', the letters one by one. -/
theorem hexCharacterTable : Obligations.HexCharacterTable :=
  ⟨fun _ => toNat_hexchar_of_lt, rfl, rfl, rfl, rfl, rfl, rfl⟩

theorem exists_hexchar_of_isOutputChar {c : Byte} (h : isOutputChar c = true) : ∃ d, d < 16 ∧ c = hexchar d := by
  obtain ⟨d, hd, hc⟩ := List.any_eq_true.mp h
  exact ⟨d, List.mem_range.mp hd, eq_of_beq hc⟩

theorem isHexDigit_of_isOutputChar {c : Byte} (h : isOutputChar c = true) : isHexDigit c = true := by
  obtain ⟨d, hd, rfl⟩ := exists_hexchar_of_isOutputChar h
  exact isHexDigit_hexchar d hd

/-- The byte 0x00 is no digit, so no byte of a text (R82). -/
theorem ne_nul_of_isOutputChar {c : Byte} (h : isOutputChar c = true) : c ≠ 0x00#8 := by
  rintro rfl
  exact absurd h (by decide)

/-! ## The characters of the lowest nibbles -/

/-- The characters of the d lowest nibbles, the most significant first: the shape both of `hex8` and of the
numeral of R81. -/
def lowDigits {n : Nat} (v : BitVec n) (d : Nat) : List Byte :=
  (List.range d).map fun p => hexchar (nibbleAt v (d - 1 - p))

theorem hex8_eq_lowDigits (w : Word) : hex8 w = lowDigits w 8 := rfl

theorem lt_pow_digitCount (m : Nat) : m < 16 ^ digitCount m := Nat.lt_pow_succ_log_self (by decide) m

section LowDigits

variable {n : Nat} (v : BitVec n)

theorem length_lowDigits (d : Nat) : (lowDigits v d).length = d := by
  rw [lowDigits, List.length_map, List.length_range]

theorem getElem_lowDigits {d p : Nat} (h : p < (lowDigits v d).length) :
    (lowDigits v d)[p] = hexchar (nibbleAt v (d - 1 - p)) := by
  simp only [lowDigits, List.getElem_map, List.getElem_range]

theorem lowDigits_succ (d : Nat) : lowDigits v (d + 1) = hexchar (nibbleAt v d) :: lowDigits v d := by
  simp only [lowDigits, List.range_succ_eq_map, List.map_cons, List.map_map, Nat.add_sub_cancel, Nat.sub_zero]
  congr 1
  refine List.map_congr_left fun p _ => ?_
  rw [Function.comp_apply, Nat.succ_eq_add_one, Nat.add_comm p 1, Nat.sub_sub]

theorem reverse_lowDigits (d : Nat) :
    (lowDigits v d).reverse = (List.range d).map fun j => hexchar (nibbleAt v j) := by
  induction d with
  | zero => rfl
  | succ d ih => rw [lowDigits_succ, List.reverse_cons, ih, List.range_succ, List.map_append, List.map_singleton]

/-- Trimming leaves as many characters as the number has hex digits (R80, R81). -/
theorem dropWhile_lowDigits {v : BitVec n} (hne : v ≠ 0#n) {d : Nat} (hlt : v.toNat < 16 ^ d) :
    (lowDigits v d).dropWhile (· == zeroChar) = lowDigits v (digitCount v.toNat) := by
  induction d with
  | zero => exact absurd (BitVec.eq_of_toNat_eq ((Nat.lt_one_iff.mp hlt).trans BitVec.toNat_zero.symm)) hne
  | succ d ih =>
    have hnibble : nibbleAt v d = v.toNat / 16 ^ d := by
      rw [Nat.pow_succ] at hlt
      rw [nibbleAt_eq, Nat.mod_eq_of_lt (Nat.div_lt_of_lt_mul hlt)]
    have hzero : (hexchar (nibbleAt v d) == zeroChar) = true ↔ v.toNat < 16 ^ d := by
      rw [beq_iff_eq, hexchar_eq_zeroChar _ (nibbleAt_lt v d), hnibble,
        Nat.div_eq_zero_iff_lt (Nat.pow_pos (by decide))]
    rw [lowDigits_succ]
    by_cases hless : v.toNat < 16 ^ d
    · rw [List.dropWhile_cons_of_pos (p := (· == zeroChar)) (hzero.mpr hless), ih hless]
    · have hlog : Nat.log 16 v.toNat = d := Nat.log_eq_of_pow_le_of_lt_pow (Nat.le_of_not_lt hless) hlt
      rw [List.dropWhile_cons_of_neg (p := (· == zeroChar)) (mt hzero.mp hless), digitCount, hlog, lowDigits_succ]

end LowDigits

/-! ## The words of the text -/

section Words

variable {a : U256} {top i : Nat}

theorem nibbleAt_word (a : U256) (i : Nat) {j : Nat} (h : j < 8) : nibbleAt (word a i) j = nibbleAt a (8 * i + j) := by
  refine congrArg BitVec.toNat (BitVec.eq_of_getLsbD_eq fun b hb => ?_)
  rw [BitVec.getLsbD_extractLsb', BitVec.getLsbD_extractLsb', getLsbD_word _ _ _ (by omega)]
  congr 2
  omega

/-- Digits of word i stand before the digits of the words below it. -/
theorem lowDigits_word_append (a : U256) (i : Nat) {m : Nat} (h : m ≤ 8) :
    lowDigits (word a i) m ++ lowDigits a (8 * i) = lowDigits a (8 * i + m) := by
  induction m with
  | zero => rfl
  | succ m ih =>
    rw [lowDigits_succ, List.cons_append, ih (Nat.le_of_succ_le h), nibbleAt_word a i h, ← Nat.add_assoc,
      lowDigits_succ]

theorem hexLower_succ (a : U256) (m : Nat) : hexLower a (m + 1) = hex8 (word a m) ++ hexLower a m := by
  rw [hexLower, List.range_succ, List.reverse_append, List.reverse_singleton, List.singleton_append,
    List.flatMap_cons, hexLower]

theorem hexLower_eq_lowDigits (a : U256) (m : Nat) : hexLower a m = lowDigits a (8 * m) := by
  induction m with
  | zero => rfl
  | succ m ih =>
    rw [hexLower_succ, ih, hex8_eq_lowDigits, lowDigits_word_append a m (Nat.le_refl 8), Nat.mul_succ]

/-- The full group of word i stands where the words above it end (R80). -/
theorem take_drop_hexLower (a : U256) (h : i < top) :
    ((hexLower a top).drop (8 * (top - 1 - i))).take 8 = hex8 (word a i) := by
  induction top with
  | zero => exact absurd h (Nat.not_lt_zero i)
  | succ m ih =>
    rw [hexLower_succ, Nat.add_sub_cancel]
    obtain hlt | rfl := Nat.lt_succ_iff_lt_or_eq.mp h
    · have hplace : 8 * (m - i) = (hex8 (word a m)).length + 8 * (m - 1 - i) := by
        rw [length_hex8]
        omega
      rw [hplace, List.drop_length_add_append, ih hlt]
    · rw [Nat.sub_self, Nat.mul_zero, List.drop_zero, ← length_hex8 (word a i), List.take_left]

theorem hexTrimmed_eq_lowDigits {w : Word} (h : w ≠ 0#32) : hexTrimmed w = lowDigits w (digitCount w.toNat) := by
  have hbound : w.toNat < 16 ^ 8 := w.isLt
  rw [hexTrimmed, hex8_eq_lowDigits, dropWhile_lowDigits h hbound]

/-- The search of R80 finds the highest non-zero word. -/
theorem topWord_eq_some_iff : topWord a = some top ↔
    top < 8 ∧ word a top ≠ 0#32 ∧ ∀ i, top < i → i < 8 → word a i = 0#32 := by
  simp only [topWord, List.find?_eq_some_iff_getElem, List.getElem_reverse, List.length_reverse, List.length_range,
    List.getElem_range, bne_iff_ne, Bool.not_eq_true', bne_eq_false_iff_eq]
  constructor
  · rintro ⟨hne, k, hk, rfl, hbefore⟩
    refine ⟨by omega, hne, fun i habove hi => ?_⟩
    have hword := hbefore (7 - i) (by omega)
    rwa [show 8 - 1 - (7 - i) = i by omega] at hword
  · rintro ⟨hlt, hne, habove⟩
    exact ⟨hne, 7 - top, by omega, by omega, fun j hj => habove _ (by omega) (by omega)⟩

theorem word_zero (i : Nat) : word 0#256 i = 0#32 := BitVec.extractLsb'_zero

theorem exists_topWord (h : a ≠ 0#256) : ∃ top, topWord a = some top := by
  refine Option.ne_none_iff_exists'.mp fun hnone => h (eq_of_word_eq _ _ fun i hi => ?_)
  have hword := List.find?_eq_none.mp hnone i (by simpa using hi)
  rw [word_zero]
  simpa using hword

theorem formatHex_of_topWord (h : topWord a = some top) :
    formatHex a = hexTrimmed (word a top) ++ hexLower a top := by
  simp only [formatHex, h]

/-- The words above the top one and the top word's leading zeros are the leading zeros of the whole value. -/
theorem dropWhile_hexLower {m : Nat} (htop : top < m) (hne : word a top ≠ 0#32)
    (habove : ∀ i, top < i → i < m → word a i = 0#32) :
    (hexLower a m).dropWhile (· == zeroChar) = hexTrimmed (word a top) ++ hexLower a top := by
  induction m with
  | zero => exact absurd htop (Nat.not_lt_zero top)
  | succ m ih =>
    rw [hexLower_succ, List.dropWhile_append, ← hexTrimmed]
    obtain hlt | rfl := Nat.lt_succ_iff_lt_or_eq.mp htop
    · have hnil : hexTrimmed (word a m) = [] := by
        rw [habove m hlt (Nat.lt_succ_self m)]
        rfl
      rw [hnil]
      exact ih hlt fun i hi him => habove i hi (Nat.lt_succ_of_lt him)
    · rw [if_neg (by simpa using hexTrimmed_ne_nil hne)]

end Words

/-! ## The numeral -/

/-- The word-level text is the text of all the value's hex digits, one digit for ZERO (R80, R81). -/
theorem formatHex_eq_lowDigits (a : U256) : formatHex a = lowDigits a (digitCount a.toNat) := by
  by_cases hzero : a = 0#256
  · subst hzero
    rfl
  · obtain ⟨top, h⟩ := exists_topWord hzero
    obtain ⟨hlt, hne, habove⟩ := topWord_eq_some_iff.mp h
    have hbound : a.toNat < 16 ^ (8 * 8) := a.isLt
    rw [formatHex_of_topWord h, ← dropWhile_hexLower hlt hne habove, hexLower_eq_lowDigits,
      dropWhile_lowDigits hzero hbound]

theorem length_formatHex (a : U256) : (formatHex a).length = Nat.log 16 a.toNat + 1 := by
  rw [formatHex_eq_lowDigits, length_lowDigits, digitCount]

theorem getElem_formatHex {a : U256} {p : Nat} (h : p < (formatHex a).length) :
    (formatHex a)[p] = hexchar (nibbleAt a ((formatHex a).length - 1 - p)) := by
  simp only [formatHex_eq_lowDigits, length_lowDigits, getElem_lowDigits]

theorem formatHex_zero : formatHex 0#256 = [0x30#8] := rfl

theorem exec_toHex (a : U256) (s : State) : exec (.toHex a) s = .next (s.succeedTxt (formatHex a)) := rfl

/-- Settles O18: the text is the value's digits, and the register holds it. -/
theorem toHexWritesTheMinimalNumeral : Obligations.ToHexWritesTheMinimalNumeral := by
  refine fun a s => ⟨_, _, formatHex a, exec_toHex a s, holdsText_formatHex a, ?zero, ?digits⟩
  case zero => rintro rfl; exact formatHex_zero
  case digits =>
    exact fun _ => ⟨length_formatHex a, fun p hp => getElem_formatHex hp⟩

/-- Settles O20: the trimmed top word and the groups of the words below it. -/
theorem toHexPrintsLowerWordsInFull : Obligations.ToHexPrintsLowerWordsInFull := by
  refine ⟨fun w => ⟨length_hex8 w, fun p hp => ?nibble⟩, fun a s top hlt hne habove => ?text⟩
  case nibble =>
    have hp' : p < (lowDigits w 8).length := (length_lowDigits w 8).symm ▸ hp
    rw [hex8_eq_lowDigits, List.getD_eq_getElem _ _ hp', getElem_lowDigits, nibbleAt]
  case text =>
    have hformat := formatHex_of_topWord (topWord_eq_some_iff.mpr ⟨hlt, hne, habove⟩)
    have hzeros : ∀ c ∈ (hex8 (word a top)).takeWhile (· == zeroChar), c = 0x30#8 :=
      fun c hc => eq_of_beq (List.mem_takeWhile_imp (p := (· == zeroChar)) hc)
    exact ⟨_, _, hexTrimmed (word a top), hexLower a top, exec_toHex a s, hformat ▸ holdsText_formatHex a,
      ⟨_, List.takeWhile_append_dropWhile.symm, hzeros⟩, head?_hexTrimmed_ne_zeroChar _, hexTrimmed_ne_nil hne,
      length_hexLower a top, fun i hi => take_drop_hexLower a hi⟩

/-! ## The length -/

theorem length_formatHex_eq_64_iff (a : U256) : (formatHex a).length = 64 ↔ 0x10000000 ≤ (word a 7).toNat := by
  have hlt := a.isLt
  have hword : (word a 7).toNat = a.toNat / 2 ^ 224 := by
    rw [word, BitVec.extractLsb'_toNat, Nat.shiftRight_eq_div_pow, Nat.mod_eq_of_lt (by omega)]
  rw [length_formatHex, Nat.succ_inj (b := 63), Nat.log_eq_iff (.inl (by decide)), hword]
  omega

theorem length_formatHex_eq_one_iff (a : U256) : (formatHex a).length = 1 ↔ a.toNat ≤ 15 := by
  rw [length_formatHex, Nat.add_eq_right, Nat.log_eq_zero_iff]
  omega

theorem length_formatHex_of_topWord {a : U256} {top : Nat} (h : topWord a = some top) :
    (formatHex a).length = 8 * top + (Nat.log 16 (word a top).toNat + 1) := by
  rw [formatHex_of_topWord h, List.length_append, length_hexLower, hexTrimmed_eq_lowDigits (topWord_eq_some h).2,
    length_lowDigits, digitCount, Nat.add_comm]

/-- Settles O21: the length is the number of hex digits of the value, counted whole or from its top word. -/
theorem toHexLength : Obligations.ToHexLength := by
  refine fun a s => ⟨_, _, exec_toHex a s, ?_⟩
  obtain ⟨hlen, hbytes⟩ := holdsText_formatHex a
  have ⟨hpos, hle⟩ := length_formatHex_bounds a
  rw [hlen]
  refine ⟨hpos, hle, fun p hp => ?noNul, length_formatHex_eq_64_iff a,
    fun hne => ⟨length_formatHex_eq_one_iff a, ?top⟩⟩
  case noNul =>
    rw [hbytes p (hp.trans_le hle), List.getD_eq_getElem _ _ hp]
    exact ne_nul_of_isOutputChar (List.all_eq_true.mp (all_isOutputChar_formatHex a) _ (List.getElem_mem hp))
  case top =>
    obtain ⟨top, h⟩ := exists_topWord hne
    obtain ⟨hlt, hword, habove⟩ := topWord_eq_some_iff.mp h
    exact ⟨top, hlt, hword, habove, length_formatHex_of_topWord h⟩

/-! ## Back to the value -/

theorem digitsVal_reverse_formatHex (a : U256) : digitsVal (formatHex a).reverse = a.toNat := by
  rw [formatHex_eq_lowDigits, reverse_lowDigits, digitsVal_hexchars, Nat.mod_eq_of_lt (lt_pow_digitCount _)]

theorem parseHex_formatHex (a : U256) : parseHex (formatHex a) = a := by
  rw [parseHex_eq_ofNat, digitsVal_reverse_formatHex, BitVec.ofNat_toNat, BitVec.setWidth_eq]

theorem head?_formatHex_eq_zeroChar_iff (a : U256) : (formatHex a).head? = some zeroChar ↔ a = 0#256 := by
  refine ⟨fun h => ?_, fun h => h ▸ rfl⟩
  rw [← parseHex_formatHex a, formatHex_eq_zeroChar_of_head? a h]
  rfl

/-- Settles O22: a text that begins with '0' is "0", and the value it denotes is ZERO. -/
theorem onlyZeroBeginsWithTheDigitZero : Obligations.OnlyZeroBeginsWithTheDigitZero := by
  rintro a s _ ⟨rfl⟩
  obtain ⟨-, hbytes⟩ := holdsText_formatHex a
  have ⟨hpos, _⟩ := length_formatHex_bounds a
  refine ⟨?first, ?zero⟩
  case first =>
    rw [← head?_formatHex_eq_zeroChar_iff, List.head?_eq_getElem?, List.getElem?_eq_getElem hpos, Option.some_inj,
      ← List.getD_eq_getElem _ 0x00#8 hpos, ← hbytes 0 (by decide)]
    rfl
  case zero =>
    rintro rfl
    exact ⟨rfl, rfl⟩

/-- Settles O23: the text of 1 to 64 digits has a legal length, and its number is the value. -/
theorem parseOfFormatIsTheValue : Obligations.ParseOfFormatIsTheValue := by
  intro v s
  have ⟨_, hle⟩ := length_formatHex_bounds v
  have hlegal : (formatHex v).length ≤ Config.hexInMax := le_hexInMax _ (by omega)
  have hdigits : ∀ c ∈ formatHex v, isHexDigit c = true := fun c hc =>
    isHexDigit_of_isOutputChar (List.all_eq_true.mp (all_isOutputChar_formatHex v) c hc)
  refine ⟨s.succeedTxt (formatHex v), (s.succeedTxt (formatHex v)).succeedR (parseHex (formatHex v)),
    exec_toHex v s, ?_⟩
  rw [text_succeedTxt_formatHex, ofText_of_le hlegal]
  exact ⟨wf_fromHex _ hlegal, exec_fromHex_of_digits hlegal hdigits, parseHex_formatHex v, rfl⟩

end Sys2Proof.Machine
end

section
/-! PROOFS. The adder, the negation unit and the subtractor as one sum modulo 2^256: the carry of one word, the
borrow chain as a carry chain on the complement, and the laws of the three instructions (R89 to R99). -/

namespace Sys2Proof.Machine

open Sys2Proof.Claims

/-! ## The chains -/

section Chains

variable (x y : U256)

theorem addc_eq_add (c : Nat) : addc x y c = x + y + BitVec.ofNat 256 c :=
  BitVec.eq_of_toNat_eq (by
    rw [toNat_addc, BitVec.toNat_add, BitVec.toNat_add, BitVec.toNat_ofNat, Nat.mod_add_mod, Nat.add_mod_mod])

theorem complementWords_eq_not : complementWords x = ~~~x :=
  eq_of_word_eq _ _ fun i h => by rw [complementWords, word_buildWords _ i h, word_not x h]

theorem words_not : words (~~~x) = (words x).map fun w => ~~~w := by
  rw [words, words, List.map_map]
  exact List.map_congr_left fun i hi => word_not x (List.mem_range.mp hi)

theorem neg_eq_addc_complement : neg x = addc (complementWords x) U256.zero 1 := by
  rw [neg_eq_neg, complementWords_eq_not, addc_eq_add, U256.zero, BitVec.add_zero, BitVec.neg_eq_not_add]

/-- The subtractor as the adder with the complement and a carry in of 1 (R97). -/
theorem addc_complement_one_eq_sub : addc x (complementWords y) 1 = x - y := by
  rw [complementWords_eq_not, addc_eq_add, BitVec.add_assoc, ← BitVec.neg_eq_not_add, BitVec.sub_eq_add_neg]

/-- The subtractor as the adder with the negation unit (R96). -/
theorem addc_neg_eq_sub : addc x (neg y) 0 = x - y := by
  rw [addc_zero_eq_add, neg_eq_neg, BitVec.sub_eq_add_neg]

end Chains

/-! ## One word position -/

section Word

variable {x y : Word} {c : Nat}

theorem carryOut_le_one (hc : c ≤ 1) : carryOut x y c ≤ 1 := by
  have hx := x.isLt
  have hy := y.isLt
  rw [carryOut, wideSum]
  omega

/-- With a carry in of 0 or 1 the exact sum has at most 33 bits, so what stands above bit 31 is bit 32 (R90). -/
theorem carryOut_eq_one_iff (hc : c ≤ 1) :
    carryOut x y c = 1 ↔ (x.toNat + y.toNat + c).testBit 32 = true := by
  have hle := carryOut_le_one (x := x) (y := y) hc
  rw [Nat.testBit_eq_decide_div_mod_eq, decide_eq_true_iff, ← wideSum, ← carryOut]
  omega

variable {bw : Int}

theorem diffWord_eq_sumWord_not (h : bw + c = 1) : diffWord x y bw = sumWord x (~~~y) c := by
  have hy := y.isLt
  refine BitVec.eq_of_toNat_eq ?_
  rw [diffWord, sumWord, wideDiff, wideSum, BitVec.toNat_ofInt, BitVec.toNat_ofNat, BitVec.toNat_not]
  omega

/-- A borrow is the carry on the complement that does not come (R97). -/
theorem borrowOut_add_carryOut_not (h : bw + c = 1) (hc : c ≤ 1) : borrowOut x y bw + carryOut x (~~~y) c = 1 := by
  have hx := x.isLt
  have hy := y.isLt
  rw [borrowOut, wideDiff, carryOut, wideSum, BitVec.toNat_not]
  split <;> omega

end Word

/-- The borrow chain is the carry chain on the complemented subtrahend, each carry 1 less the borrow (R97). -/
theorem borrowChain_eq_carryChain (xs ys : List Word) {bw : Int} {c : Nat} (h : bw + c = 1) (hc : c ≤ 1) :
    borrowChain (xs.zip ys) bw = carryChain (xs.zip (ys.map fun w => ~~~w)) c := by
  induction xs generalizing ys bw c with
  | nil => rfl
  | cons x xs ih =>
    cases ys with
    | nil => rfl
    | cons y ys =>
      rw [List.map_cons, List.zip_cons_cons, List.zip_cons_cons, borrowChain, carryChain, diffWord_eq_sumWord_not h,
        ih ys (borrowOut_add_carryOut_not h hc) (carryOut_le_one hc)]

theorem subb_eq_addc_complement (x y : U256) : subb x y = addc x (complementWords y) 1 := by
  rw [subb, addc, complementWords_eq_not, words_not, borrowChain_eq_carryChain _ _ (c := 1) rfl le_rfl]

/-! ## The three instructions -/

section Exec

variable (a b : U256) (s : State)

theorem exec_add : exec (.add a b) s = .next (valueDone s (a + b)) := by
  rw [← addc_zero_eq_add]
  rfl

theorem exec_negate : exec (.negate a) s = .next (valueDone s (-a)) := by
  rw [← neg_eq_neg]
  rfl

theorem exec_sub : exec (.sub a b) s = .next (valueDone s (a - b)) := by
  rw [← addc_neg_eq_sub]
  rfl

theorem exec_sub_eq_exec_add_neg : exec (.sub a b) s = exec (.add a (neg b)) s := rfl

end Exec

/-- The number of a difference is the remainder of the exact difference, not negative (R96). -/
theorem toNat_sub_eq_emod (a b : U256) : ((a - b).toNat : Int) = ((a.toNat : Int) - (b.toNat : Int)) % 2 ^ 256 := by
  have hb := b.isLt
  rw [BitVec.toNat_sub]
  omega

/-! ## The statements -/

/-- Settles O25: the eight words of the chain and the carry out above them are the exact sum. -/
theorem carryChainAddsModulo : Obligations.CarryChainAddsModulo := fun x y c0 _ => toNat_addc x y c0

/-- Settles O26, by the bound of the exact sum; the separating case of R90 is evaluated. -/
theorem carryIsBit32OfTheExactSum : Obligations.CarryIsBit32OfTheExactSum :=
  ⟨fun _ _ _ hc => ⟨carryOut_le_one hc, carryOut_eq_one_iff hc⟩, by decide, by decide⟩

/-- Settles O27: the sum of the two bit vectors is the sum modulo 2^256. -/
theorem addIsTheSumModulo : Obligations.AddIsTheSumModulo := fun a b s =>
  ⟨a + b, exec_add a b s, BitVec.toNat_add a b⟩

/-- Settles O28, by the group laws of addition modulo 2^256. -/
theorem addLaws : Obligations.AddLaws := by
  intro u v w s
  simp only [exec_add, addc_zero_eq_add, neg_eq_neg]
  refine ⟨?zeroRight, ?zeroLeft, ?wrap, ?comm, ?assoc, ?inverse⟩
  case zeroRight => rw [U256.zero, BitVec.add_zero]
  case zeroLeft => rw [U256.zero, BitVec.zero_add]
  case wrap =>
    have hwrap : U256.max + U256.one = U256.zero := by decide
    rw [hwrap]
  case comm => rw [BitVec.add_comm]
  case assoc => rw [BitVec.add_assoc]
  case inverse => rw [BitVec.add_right_neg, U256.zero]

/-- Settles O29: both chains are the complement plus one, which is the two's complement. -/
theorem negateIsTheTwosComplement : Obligations.NegateIsTheTwosComplement := fun a s =>
  ⟨⟨-a, exec_negate a s, BitVec.toNat_neg a⟩, neg_eq_addc_complement a⟩

/-- Settles O30: the second negate reads the value the first left in RSP_R. -/
theorem negateLaws : Obligations.NegateLaws := by
  refine fun a s => ⟨?zero, valueDone s (-a), exec_negate a s, ?twice⟩
  case zero => rw [exec_negate, U256.zero, BitVec.neg_zero]
  case twice =>
    have hres : (valueDone s (-a)).rspR = -a := rfl
    rw [exec_negate, hres, BitVec.neg_neg]

/-- Settles O31: the subtractor is the adder with the negation unit, and its number the remainder of A - B. -/
theorem subIsTheDifferenceModulo : Obligations.SubIsTheDifferenceModulo := fun a b s =>
  ⟨a - b, exec_sub a b s, toNat_sub_eq_emod a b, exec_sub_eq_exec_add_neg a b s⟩

/-- Settles O32: the borrow chain is the carry chain on the complement, and that is the sum with the negation. -/
theorem subtractorDatapathsAgree : Obligations.SubtractorDatapathsAgree := by
  intro x y
  have hneg : addc x (complementWords y) 1 = addc x (neg y) 0 := by
    rw [addc_complement_one_eq_sub, addc_neg_eq_sub]
  exact ⟨(subb_eq_addc_complement x y).trans hneg, hneg⟩

/-- Settles O33: the first law is the group law, the other two are differences of fixed values. -/
theorem subLaws : Obligations.SubLaws := by
  intro a s
  have hunder : U256.zero - U256.one = U256.max := by decide
  have hone : 3#256 - 2#256 = 1#256 := by decide
  rw [exec_sub, exec_sub, exec_sub, BitVec.sub_self, hunder, hone]
  exact ⟨rfl, rfl, rfl⟩

end Sys2Proof.Machine
end

section
/-! PROOFS. What each rotate completes with: every bit's place, the number of a left rotation, whole words, and the laws
(R102, R104, R105, R107 to R109). -/

namespace Sys2Proof.Machine

open Sys2Proof.Claims

/-! ## The rotation amount -/

theorem rotAmount_lt (n : Word) : rotAmount n < 256 := Nat.mod_lt _ (by decide)

theorem rotAmount_ofNat {m : Nat} (h : m < 256) : rotAmount (BitVec.ofNat 32 m) = m := by
  rw [rotAmount, BitVec.toNat_ofNat]
  omega

/-! ## The two rotations of a value -/

section Value

variable (x : U256) {k : Nat}

theorem rol_eq_rotateLeft (hk : k < 256) : rol x k = x.rotateLeft k := by
  refine BitVec.eq_of_getLsbD_eq fun j hj => ?_
  rw [getLsbD_rol x hk hj]
  rw [BitVec.getLsbD_rotateLeft_of_le hk, Bool.cond_decide, decide_eq_true hj, Bool.true_and]
  split
  all_goals
    congr 1
    omega

/-- R102 said of where a bit goes: bit j of X goes to place j + k, and past bit 255 to the low end. -/
theorem getLsbD_rol_add {j : Nat} (hk : k < 256) (hj : j < 256) :
    (rol x k).getLsbD ((j + k) % 256) = x.getLsbD j := by
  rw [getLsbD_rol x hk (Nat.mod_lt _ (by decide))]
  congr 1
  omega

/-- The bits moved up and the bits that re-enter below them do not meet, so their OR is their sum (R102). -/
theorem toNat_rol (hk : k < 256) : (rol x k).toNat = (x.toNat * 2 ^ k + x.toNat / 2 ^ (256 - k)) % 2 ^ 256 := by
  have hpow : (2 : Nat) ^ 256 = 2 ^ (256 - k) * 2 ^ k := by rw [← pow_add, Nat.sub_add_cancel hk.le]
  have hlow : x.toNat / 2 ^ (256 - k) < 2 ^ k := Nat.div_lt_of_lt_mul (hpow ▸ x.isLt)
  have hsum : (rol x k).toNat = x.toNat * 2 ^ k % 2 ^ 256 + x.toNat / 2 ^ (256 - k) := by
    rw [rol_eq_rotateLeft x hk, BitVec.toNat_rotateLeft, Nat.mod_eq_of_lt hk, Nat.shiftLeft_eq,
      Nat.shiftRight_eq_div_pow, hpow, Nat.mul_mod_mul_right, Nat.mul_comm, Nat.two_pow_add_eq_or_of_lt hlow]
  rw [← Nat.mod_add_mod, ← hsum, Nat.mod_eq_of_lt (rol x k).isLt]

/-- Left by k is right by 256 - k (R109). -/
theorem ror_eq_rol (hk : k < 256) : ror x ((256 - k) % 256) = rol x k := by
  have hback : (256 - (256 - k) % 256) % 256 = k := by omega
  rw [← rol_eq_ror x (Nat.mod_lt _ (by decide)), hback]

theorem rol_zero : rol x 0 = x :=
  BitVec.eq_of_getLsbD_eq fun j hj => by
    rw [getLsbD_rol x (by decide) hj, Nat.sub_zero, Nat.add_mod_right, Nat.mod_eq_of_lt hj]

theorem ror_rol (hk : k < 256) : ror (rol x k) k = x :=
  BitVec.eq_of_getLsbD_eq fun j hj => by rw [getLsbD_ror _ hj, getLsbD_rol_add x hk hj]

/-! ## Whole words -/

variable {i : Nat}

theorem word_rol_of_rotBits_eq_zero (hm : rotBits k = 0) (hi : i < 8) :
    word (rol x k) i = word x ((i + 8 - rotWords k) % 8) := by
  rw [rol, word_buildWords _ _ hi, joinLeft, if_pos hm]

theorem word_ror_of_rotBits_eq_zero (hm : rotBits k = 0) (hi : i < 8) :
    word (ror x k) i = word x ((i + rotWords k) % 8) := by
  rw [ror, word_buildWords _ _ hi, joinRight, if_pos hm]

/-! ## The number of 1 bits -/

/-- The places of the 1 bits of a value. -/
def onePlaces (v : U256) : Finset Nat := (Finset.range 256).filter fun j => v.getLsbD j = true

theorem mem_onePlaces {v : U256} {j : Nat} : j ∈ onePlaces v ↔ j < 256 ∧ v.getLsbD j = true := by
  rw [onePlaces, Finset.mem_filter, Finset.mem_range]

/-- A left rotation pairs the places of the 1 bits, j with (j + k) mod 256. -/
theorem card_onePlaces_rol (hk : k < 256) : (onePlaces (rol x k)).card = (onePlaces x).card := by
  symm
  refine Finset.card_nbij' (fun j => (j + k) % 256) (fun j => (j + 256 - k) % 256) ?_ ?_ ?_ ?_
  · intro j hj
    obtain ⟨hlt, hone⟩ := mem_onePlaces.mp hj
    exact mem_onePlaces.mpr ⟨Nat.mod_lt _ (by decide), by rwa [getLsbD_rol_add x hk hlt]⟩
  · intro j hj
    obtain ⟨hlt, hone⟩ := mem_onePlaces.mp hj
    exact mem_onePlaces.mpr ⟨Nat.mod_lt _ (by decide), by rwa [← getLsbD_rol x hk hlt]⟩
  · intro j hj
    have hlt := (mem_onePlaces.mp hj).1
    show ((j + k) % 256 + 256 - k) % 256 = j
    omega
  · intro j hj
    have hlt := (mem_onePlaces.mp hj).1
    show ((j + 256 - k) % 256 + k) % 256 = j
    omega

theorem card_onePlaces_ror (hk : k < 256) : (onePlaces (ror x k)).card = (onePlaces x).card := by
  rw [← rol_eq_ror x hk, card_onePlaces_rol x (Nat.mod_lt _ (by decide))]

end Value

/-! ## The two instructions -/

section Exec

variable (a : U256) (n : Word) (s : State)

theorem exec_rotateLeft : exec (.rotateLeft a n) s = .next (valueDone s (rol a (rotAmount n))) := rfl

theorem exec_rotateRight : exec (.rotateRight a n) s = .next (valueDone s (ror a (rotAmount n))) := rfl

end Exec

/-- A completion determines the value it left in RSP_R. -/
theorem eq_of_next_valueDone {s : State} {v w : U256}
    (h : (.next (valueDone s v) : Host.Outcome State Fault Refusal) = .next (valueDone s w)) : v = w :=
  congrArg State.rspR (Host.Outcome.next.inj h)

/-! ## The statements -/

/-- Settles O35, by the bits and the number of ROL. -/
theorem rotateLeftMovesEveryBit : Obligations.RotateLeftMovesEveryBit := fun a n s =>
  ⟨rol a (rotAmount n), exec_rotateLeft a n s, fun _ hj => getLsbD_rol_add a (rotAmount_lt n) hj,
    toNat_rol a (rotAmount_lt n)⟩

/-- Settles O36, by the bits of ROR and its form as a left rotation. -/
theorem rotateRightMovesEveryBit : Obligations.RotateRightMovesEveryBit := fun a n s =>
  ⟨ror a (rotAmount n), exec_rotateRight a n s, fun _ hj => getLsbD_ror a hj,
    (rol_eq_ror a (rotAmount_lt n)).symm⟩

/-- Settles O37: the bit count within a word is 0, so each joined word is one word of A. -/
theorem multiplesOf32PermuteWords : Obligations.MultiplesOf32PermuteWords := by
  intro a n s hn
  have hm : rotBits (rotAmount n) = 0 := by
    rw [rotBits, rotAmount]
    omega
  exact ⟨⟨rol a (rotAmount n), exec_rotateLeft a n s, fun _ hi => word_rol_of_rotBits_eq_zero a hm hi⟩,
    ⟨ror a (rotAmount n), exec_rotateRight a n s, fun _ hi => word_ror_of_rotBits_eq_zero a hm hi⟩⟩

/-- Settles O38: each law is the law of ROL and ROR at the amounts the commands carry. -/
theorem rotationLaws : Obligations.RotationLaws := by
  intro v n s
  have hk := rotAmount_lt n
  refine ⟨?complement, ?full, ?none, ?reduced, ⟨valueDone s (rol v (rotAmount n)), exec_rotateLeft v n s, ?undone⟩,
    ?ones⟩
  case complement =>
    rw [exec_rotateLeft, exec_rotateRight, rotAmount_ofNat (Nat.mod_lt _ (by decide)), ← rotAmount, ror_eq_rol v hk]
  case full =>
    have h256 : rotAmount 256#32 = 0 := rfl
    rw [exec_rotateLeft, h256, rol_zero]
  case none =>
    have h0 : rotAmount 0#32 = 0 := rfl
    rw [exec_rotateLeft, h0, rol_zero]
  case reduced => rw [exec_rotateLeft, exec_rotateLeft, ← rotAmount, rotAmount_ofNat hk]
  case undone =>
    have hres : (valueDone s (rol v (rotAmount n))).rspR = rol v (rotAmount n) := rfl
    rw [hres, exec_rotateRight, ror_rol v hk]
  case ones =>
    rintro r (h | h)
    · rw [← eq_of_next_valueDone h]
      exact card_onePlaces_rol v hk
    · rw [← eq_of_next_valueDone h]
      exact card_onePlaces_ror v hk

end Sys2Proof.Machine
end

section
/-! PROOFS. Each error has exactly its causes (R111, R112, R115), and when the host may read the last command's result
(R123, R130 to R132). -/

namespace Sys2Proof.Machine

open Sys2Proof.Claims

/-- The causes of each error, as R111 and R115 list them. -/
def ErrKind.IsCausedBy (k : ErrKind) (i : Instr) : Prop :=
  match k with
  | .invalidDigit =>
    ∃ tlen txt, i = .fromHex tlen txt ∧ tlen ≤ Config.hexInMax ∧ ∃ c ∈ txt, isHexDigit c = false
  | .indexOutOfRange => ∃ a index, i = .getWord a index ∧ 7 < index.toNat
  | .illegalCommand => 0xA ≤ (opcode i).toNat ∨ ∃ tlen txt, i = .fromHex tlen txt ∧ Config.hexInMax < tlen

theorem ErrKind.code_injective : Function.Injective ErrKind.code :=
  fun k k' h => Option.some.inj (by rw [← ofCode_code k, h, ofCode_code])

theorem form_eq_reserved_of_opcode {i : Instr} (h : 0xA ≤ (opcode i).toNat) : i.form = .reserved := by
  cases i with
  | reservedA | reservedB | reservedC | reservedD | reservedE | reservedF => rfl
  | fromU32 | fromWords | fromHex | toHex | getWord | add | negate | sub | rotateLeft | rotateRight =>
    simp [opcode] at h

section Causes

variable {i : Instr} {s t : State} {k : ErrKind}

/-- Wherever a cause of an error is present, the command ends with that error. -/
theorem exec_of_isCausedBy (h : k.IsCausedBy i) : exec i s = .next (s.raise k) := by
  cases k with
  | invalidDigit =>
    obtain ⟨tlen, txt, rfl, hlen, hbad⟩ := h
    exact exec_fromHex_of_nonDigit hlen hbad
  | indexOutOfRange =>
    obtain ⟨a, index, rfl, hindex⟩ := h
    exact exec_getWord_of_gt hindex
  | illegalCommand =>
    obtain hop | ⟨tlen, txt, rfl, hlen⟩ := h
    · exact exec_of_form_reserved (form_eq_reserved_of_opcode hop)
    · exact exec_fromHex_of_reserved hlen

/-- No other operand value of any instruction ends with an error (R115). -/
theorem isCausedBy_or_success (i : Instr) (s : State) :
    (∃ k : ErrKind, k.IsCausedBy i) ∨ ∃ t, exec i s = .next t ∧ t.rspErr = 0#2 := by
  cases i with
  | fromHex tlen txt =>
    by_cases hlen : Config.hexInMax < tlen
    · exact .inl ⟨.illegalCommand, .inr ⟨tlen, txt, rfl, hlen⟩⟩
    by_cases hbad : ∃ c ∈ txt, isHexDigit c = false
    · exact .inl ⟨.invalidDigit, tlen, txt, rfl, Nat.le_of_not_lt hlen, hbad⟩
    · exact .inr ⟨_, exec_fromHex_of_digits (Nat.le_of_not_lt hlen) (by simpa using hbad), rfl⟩
  | getWord a index =>
    by_cases hindex : 7 < index.toNat
    · exact .inl ⟨.indexOutOfRange, a, index, rfl, hindex⟩
    · exact .inr ⟨_, exec_getWord_of_le (Nat.le_of_not_lt hindex), rfl⟩
  | fromU32 | fromWords | toHex | add | negate | sub | rotateLeft | rotateRight => exact .inr ⟨_, rfl, rfl⟩
  | reservedA | reservedB | reservedC | reservedD | reservedE | reservedF =>
    exact .inl ⟨.illegalCommand, .inl (by decide)⟩

/-- RSP_ERR takes an error's code exactly where one of its causes is present (R112). -/
theorem rspErr_eq_code_iff (h : exec i s = .next t) (k : ErrKind) : t.rspErr = k.code ↔ k.IsCausedBy i := by
  constructor
  · intro he
    obtain ⟨k', hk'⟩ | ⟨t', ht', hsuccess⟩ := isCausedBy_or_success i s
    · cases (exec_of_isCausedBy hk').symm.trans h
      exact ErrKind.code_injective he ▸ hk'
    · cases ht'.symm.trans h
      exact absurd (he.symm.trans hsuccess) k.code_ne_zero
  · intro hk
    cases (exec_of_isCausedBy hk).symm.trans h
    exact State.raise_rspErr s k

end Causes

/-- Settles O40, by the causes of each code; what an error leaves is O42's. -/
theorem errorCodesHaveExactlyTheirCauses : Obligations.ErrorCodesHaveExactlyTheirCauses := by
  intro i s t h
  refine ⟨rspErr_eq_code_iff h .invalidDigit, rspErr_eq_code_iff h .indexOutOfRange,
    rspErr_eq_code_iff h .illegalCommand, fun h3 => ?_⟩
  obtain ⟨herror, -⟩ := completionWritesOnlyItsRegisters i s t h
  exact h3 ▸ herror (by rw [h3]; decide)

/-- Settles O52: `hostReadResult_eq_next_iff` says when the read goes on, and where it does not it faults. -/
theorem resultReadsGoOnExactlyWhenAllowed : Obligations.ResultReadsGoOnExactlyWhenAllowed := by
  intro s r rest hh
  simp only [State.Safe, step_of_readResult hh]
  refine ⟨?_, (hostReadResult_next_or_fault r _).imp_right fun ⟨f, e, _⟩ => ⟨f, e⟩⟩
  simp only [hostReadResult_eq_next_iff]
  exact ⟨fun ⟨_, hb, hw, hl, hc, _⟩ => ⟨hb, hw, hl, hc⟩, fun ⟨hb, hw, hl, hc⟩ => ⟨_, hb, hw, hl, hc, rfl⟩⟩

end Sys2Proof.Machine
end

section
/-! PROOFS. A reset edge, the issue of an instruction held until an edge accepts it, and the reads of a result after
its completion (R124, R125, R129 to R131). -/

namespace Sys2Proof.Machine

open Sys2Proof.Claims

section Reset

variable {s : State} {p : Pins} {rest : List HostEvent}

theorem clockEdge_of_reset (hr : p.rst = true) : clockEdge p s = .next s.resetEdge := if_pos hr

/-- A reset edge goes on whatever the host had to hold (R124; log entry 12). -/
theorem step_of_reset_edge (hh : s.host = .edge p :: rest) (hr : p.rst = true) :
    step s = .next ((s.withHost rest).noteOffer p).resetEdge := by
  rw [step_of_edge hh, hostEdge_of_held _ _ (breaksHold_of_reset _ p hr), clockEdge_of_reset hr]

end Reset

/-- Settles O45, by the fields of the state a reset edge leaves. -/
theorem resetEdgeAbandonsAndUnwrites : Obligations.ResetEdgeAbandonsAndUnwrites := fun _ _ _ hh hr =>
  ⟨rfl, rfl, _, step_of_reset_edge hh hr, rfl, rfl, rfl, isWritten_of_written_nothing rfl, rfl⟩

section Issue

variable {s : State} {i : Instr} {rest : List HostEvent}

/-- An issue is an edge at which the instruction is presented; it is spent where the core is idle (R129). -/
theorem step_of_issue (hh : s.host = .issue i :: rest) (hwf : i.wf = true) :
    step s = hostEdge (presentPins i) (if s.busy then s else s.withHost rest) :=
  (step_of_event hh).trans (if_pos hwf)

theorem holds_presentPins (ho : s.offered = none ∨ s.offered = some (encode i)) :
    holds s.offered (presentPins i) := by
  obtain ho | ho := ho <;> simp [ho, holds, presented, presentPins]

/-- An idle core takes the issued command at once, and nothing is left to hold (R29, R129). -/
theorem step_of_issue_idle (hh : s.host = .issue i :: rest) (hwf : i.wf = true)
    (hold : holds s.offered (presentPins i)) (hb : s.busy = false) :
    step s = .next (State.accept { s with host := rest, offered := none } (encode i)) := by
  rw [step_of_issue hh hwf, if_neg (Bool.eq_false_iff.mp hb)]
  exact hostEdge_of_presented (s := s.withHost rest) (p := presentPins i) rfl hb rfl hold

/-- While a command is in progress the issue takes an edge of it and stays, its command the one to hold (R129). -/
theorem step_of_issue_busy (hh : s.host = .issue i :: rest) (hwf : i.wf = true)
    (hold : holds s.offered (presentPins i)) (hb : s.busy = true) :
    step s = busyEdge { s with offered := some (encode i) } := by
  rw [step_of_issue hh hwf, if_pos hb]
  exact hostEdge_of_busy (p := presentPins i) rfl hb hold

end Issue

/-- Settles O50, by the edge the issue takes: an accepting one, one before the completing edge, or that edge. -/
theorem issueHoldsTheCommandUntilAccepted : Obligations.IssueHoldsTheCommandUntilAccepted := by
  intro s i rest hh hwf ho
  have hold : holds s.offered (presentPins i) := holds_presentPins ho
  refine ⟨fun hb => ?_, fun q hb hp => ?_⟩
  · exact ⟨_, _, step_of_issue_idle hh hwf hold hb, rfl, rfl, rfl, rfl, decodeOfEncodeIsTheInstruction i hwf,
      rfl, rfl, rfl, rfl, rfl, rfl⟩
  · rw [step_of_issue_busy hh hwf hold hb]
    obtain hq | hq := Nat.lt_or_ge 1 q.remaining
    · exact ⟨_, busyEdge_of_waiting hp hq, rfl, rfl, fun _ => ⟨hb, rfl, rfl, rfl, rfl, rfl, rfl⟩,
        fun hlast => absurd hlast (Nat.not_le.mpr hq)⟩
    · let u : State := { s with offered := some (encode i) }
      obtain ⟨t, ht⟩ := exec_eq_next (decode q.cmd) u
      obtain ⟨hbusy, -, -, -, -, hhost, -, hoffered⟩ := exec_completes _ _ t ht
      exact ⟨t, (busyEdge_of_last (s := u) hp hq).trans ht, hhost, hoffered, fun hwait => absurd hq (Nat.not_le.mpr hwait),
        fun _ => ⟨hbusy, ht⟩⟩

section Reads

variable {s t : State} {i : Instr} {r : RspReg} {rest : List HostEvent}

/-- A completion that wrote any register wrote RSP_ERR (R32). -/
theorem LastCompletion.wrote_rspErr {l : LastCompletion} (h : l.wrote r = true) : l.wrote .rspErr = true := by
  cases l with
  | noneYet => cases h
  | errored | wroteR | wroteW | wroteTxt => rfl

/-- The register the last completion is recorded to have written is marked written (R32, R33). -/
theorem isWritten_of_exec (h : exec i s = .next t) (hl : t.last.wrote r = true) : t.isWritten r = true := by
  obtain ⟨v, e⟩ | ⟨w, e⟩ | ⟨a, e⟩ | ⟨k, e⟩ := exec_cases i s <;> cases e ▸ h
  all_goals cases r <;> simp [LastCompletion.wrote, State.isWritten] at hl ⊢

@[simp] theorem State.deliver_content (s : State) (r r' : RspReg) : (s.deliver r).content r' = s.content r' := by
  cases r' <;> rfl

@[simp] theorem State.withHost_content (s : State) (l : List HostEvent) (r : RspReg) :
    (s.withHost l).content r = s.content r := by
  cases r <;> rfl

/-- A read that meets every condition of R123 and R130 to R132 delivers the register. -/
theorem step_of_allowed_readResult (hh : s.host = .readResult r :: rest) (hb : s.busy = false)
    (hw : s.isWritten r = true) (hl : s.last.wrote r = true) (hc : r ≠ .rspErr → s.errChecked = true) :
    step s = .next ((s.withHost rest).deliver r) := by
  rw [step_of_readResult hh, hostReadResult_eq_next_iff]
  exact ⟨hb, hw, hl, hc, rfl⟩

end Reads

/-- Settles O54: the read of RSP_ERR goes on after any completion, and it is the check the second read asks for. -/
theorem resultIsReadableAfterCompletion : Obligations.ResultIsReadableAfterCompletion := by
  intro i s t r rest hh h _ hl
  obtain ⟨hb, -, -, herr, -, hhost, -⟩ := exec_completes i s t h
  let u := (t.withHost (.readResult r :: rest)).deliver .rspErr
  have first : step t = .next u :=
    step_of_allowed_readResult (hhost.trans hh) hb herr (LastCompletion.wrote_rspErr hl) fun hne => absurd rfl hne
  have hw : t.isWritten r = true := isWritten_of_exec h hl
  have second : step u = .next ((u.withHost rest).deliver r) :=
    step_of_allowed_readResult rfl hb hw hl fun _ => by simp [u]
  have hcontent : (u.withHost rest).content r = t.content r := by simp [u]
  exact ⟨_, (core_run_next 1 t u first).trans ((core_run_one u).trans second), congrArg some hcontent, rfl⟩

end Sys2Proof.Machine
end
